-- ==== Sys2Proof/Word.lean ====
section
/-! DEFINITION. The widths of the WBC: every register is a 64-bit word, a byte is 8 bits
(00_scope.md R7, 10_state.md R22). -/

namespace Sys2Proof

/-- A register of the block (REG_W = 64, 00_scope.md R7). -/
abbrev Word := BitVec 64

/-- A byte of a frame (BYTE_W = 8, 00_scope.md R7). -/
abbrev Byte := BitVec 8

end Sys2Proof
end

