-- ==== Sys2Proof/Config.lean ====
section
/-! DEFINITION. What the spec leaves to the implementation and to the platform: the OPEN parameters of
00_scope.md R7, and the free values of 93_implementation_defined.md (U3, U7, U8). A constant
without a body here is a free value: nothing can be proved about which one it is. -/

namespace Sys2Proof

/-- The OPEN parameters of 00_scope.md R7. One machine keeps one `Params` for ever (log entry 1). -/
structure Params where
  /-- BUF_CAP, the capacity of IBUF and of OBUF in bytes (U1). -/
  bufCap : Nat
  /-- MAX_LATENCY, in block clock cycles (U2). -/
  maxLatency : Nat
  /-- WBC_BASE, the bus address of window offset 0 (U4). -/
  wbcBase : Nat
  /-- N_INST, how many blocks the platform holds (U5). -/
  nInst : Nat
  /-- BUS_ERR_ON_UNSUPPORTED (U6). -/
  busErrOnUnsupported : Bool
  deriving DecidableEq, Repr

/-- How far BUF_CAP lies above its least value 8: 00_scope.md R7 allows 8 to 4096. -/
opaque Config.bufCapAboveEight : Fin 4089

/-- MAX_LATENCY of the machine that `State.reset` describes. -/
opaque Config.maxLatency : Nat

/-- WBC_BASE of the machine that `State.reset` describes. -/
opaque Config.wbcBase : Nat

/-- How many further blocks the platform holds: N_INST is at least 1. -/
opaque Config.furtherInstances : Nat

/-- BUS_ERR_ON_UNSUPPORTED of the machine that `State.reset` describes. -/
opaque Config.busErrOnUnsupported : Bool

/-- The parameters of the machine that `State.reset` describes: any the spec allows (log entry 1). -/
def Config.params : Params where
  bufCap := 8 + Config.bufCapAboveEight.val
  maxLatency := Config.maxLatency
  wbcBase := Config.wbcBase
  nInst := 1 + Config.furtherInstances
  busErrOnUnsupported := Config.busErrOnUnsupported

/-- Free value: the `k`-th latency drawn, before it is brought within MAX_LATENCY (70 R230, U3; log
entry 3). -/
opaque Config.latencyDraw : Nat → Nat

/-- Free value: the byte that reset number `k` leaves in IBUF[`i`] (10_state.md R49, U7; log entry 4). -/
opaque Config.ibufAtReset : Nat → Nat → Byte

/-- Free value: the byte that reset number `k` leaves stored in OBUF[`i`] (U8; log entry 5). -/
opaque Config.obufAtReset : Nat → Nat → Byte

/-- Free value: the `k`-th word a host gets from outside the block's window (log entry 17). -/
opaque Config.platformData : Nat → Word

end Sys2Proof
end

