-- ==== Sys2Proof/Syntax.lean ====
section
/-! DEFINITION. The command set: one constructor per row of spec/opcode_table.json (30_encoding.md
R92). A constructor carries the fields of the command word its row leaves open and no other: the
operands are registers (R95, R96). -/

namespace Sys2Proof

/-- The six commands of 00_scope.md R3. `ft` is the frame tag FT (0 = byte-sequence form, 1 = integer
form, 2 and 3 = no form), `f8` is force8Bytes, `sz` is size present (30_encoding.md R90). -/
inductive Instr where
  /-- 40_bit_accessor.md R120 -/
  | nthbit
  /-- 40_bit_accessor.md R121 -/
  | partofbyte
  /-- 41_byte_range.md R140 -/
  | nthbyte (ft : BitVec 2)
  /-- 41_byte_range.md R141 -/
  | bytesfromto (ft : BitVec 2) (f8 : Bool)
  /-- 42_integer_converter.md R170 -/
  | inttostring (sz : Bool)
  /-- 42_integer_converter.md R171 -/
  | stringtoint
  deriving DecidableEq, Repr

end Sys2Proof
end

