-- ==== Sys2Proof/WellFormed.lean ====
section
/-! DEFINITION. The checks on what the outside hands to the block: a command word (30_encoding.md R93)
and a choice of the OPEN parameters (00_scope.md R7). Every term of `Instr` is well-formed by its
types: a constructor has no field that R92 would restrict further. `legal` is R93's formula written
down a second time, independent of the decoder; that the two agree is an obligation. -/

namespace Sys2Proof

/-- R93: c[63:8] = 0. -/
def legalReserved (c : Word) : Bool := c.toNat / 256 == 0

/-- R93: c[3:0] is one of 0x1 to 0x6. -/
def legalOpcode (c : Word) : Bool := [1, 2, 3, 4, 5, 6].contains (c.toNat % 16)

/-- R93: opcodes 0x1, 0x2, 0x5 and 0x6 need c[5:4] = 0. -/
def legalFrameTag (c : Word) : Bool :=
  !([1, 2, 5, 6].contains (c.toNat % 16)) || c.toNat / 16 % 4 == 0

/-- R93: opcodes 0x1, 0x2, 0x3, 0x5 and 0x6 need c[6] = 0. -/
def legalForce8 (c : Word) : Bool :=
  !([1, 2, 3, 5, 6].contains (c.toNat % 16)) || c.toNat / 64 % 2 == 0

/-- R93: opcodes 0x1, 0x2, 0x3, 0x4 and 0x6 need c[7] = 0. -/
def legalSize (c : Word) : Bool :=
  !([1, 2, 3, 4, 6].contains (c.toNat % 16)) || c.toNat / 128 % 2 == 0

/-- R93: the legality check on the 64-bit value written to CMD. -/
def legal (c : Word) : Bool :=
  legalReserved c && legalOpcode c && legalFrameTag c && legalForce8 c && legalSize c

/-- 00_scope.md R7: the values the OPEN parameters may take. -/
def Params.wellFormed (p : Params) : Bool :=
  decide (8 ≤ p.bufCap) && decide (p.bufCap ≤ 4096) && decide (1 ≤ p.nInst)

end Sys2Proof
end

