-- ==== Sys2Proof/Decode.lean ====
section
/-! DEFINITION. From the 64-bit value of CMD to a command and back (30_encoding.md R90 to R94). The
decoder takes the fields out once and follows the opcode map R92; it names why it rejects a word. -/

namespace Sys2Proof

/-- Why a word is no command (30_encoding.md R91, R92, R94). Each of them is reported to the host as
IllegalRequest(CMD, 0). -/
inductive DecodeError where
  /-- CMD[63:32] is not 0 (R91). -/
  | upperHalfNotZero
  /-- CMD[31:8] is not 0 (R90). -/
  | reservedBitsNotZero
  /-- OP is 0x0 or 0x7 to 0xF (R92). -/
  | reservedOpcode
  /-- FT is not 0 where R92 says it must be. -/
  | frameTagNotZero
  /-- F8 is not 0 where R92 says it must be. -/
  | force8NotZero
  /-- SZ is not 0 where R92 says it must be. -/
  | sizeNotZero
  deriving DecidableEq, Repr

/-- CMD[63:32] (R91). -/
def upperHalf (c : Word) : BitVec 32 := c.extractLsb' 32 32

/-- RSVD, CMD[31:8] (R90). -/
def reservedBits (c : Word) : BitVec 24 := c.extractLsb' 8 24

/-- OP, CMD[3:0] (R90). -/
def opField (c : Word) : BitVec 4 := c.extractLsb' 0 4

/-- FT, CMD[5:4] (R90). -/
def ftField (c : Word) : BitVec 2 := c.extractLsb' 4 2

/-- F8, CMD[6] (R90). -/
def f8Field (c : Word) : Bool := c.getLsbD 6

/-- SZ, CMD[7] (R90). -/
def szField (c : Word) : Bool := c.getLsbD 7

/-- FT must be 0 (R92). -/
def needNoFrameTag (ft : BitVec 2) (k : Except DecodeError Instr) : Except DecodeError Instr :=
  if ft = 0 then k else .error .frameTagNotZero

/-- F8 must be 0 (R92). -/
def needNoForce8 (f8 : Bool) (k : Except DecodeError Instr) : Except DecodeError Instr :=
  if f8 then .error .force8NotZero else k

/-- SZ must be 0 (R92). -/
def needNoSize (sz : Bool) (k : Except DecodeError Instr) : Except DecodeError Instr :=
  if sz then .error .sizeNotZero else k

/-- The opcode map R92. -/
def decodeFields (op : BitVec 4) (ft : BitVec 2) (f8 sz : Bool) : Except DecodeError Instr :=
  if op = 0x1 then needNoFrameTag ft (needNoForce8 f8 (needNoSize sz (.ok .nthbit)))
  else if op = 0x2 then needNoFrameTag ft (needNoForce8 f8 (needNoSize sz (.ok .partofbyte)))
  else if op = 0x3 then needNoForce8 f8 (needNoSize sz (.ok (.nthbyte ft)))
  else if op = 0x4 then needNoSize sz (.ok (.bytesfromto ft f8))
  else if op = 0x5 then needNoFrameTag ft (needNoForce8 f8 (.ok (.inttostring sz)))
  else if op = 0x6 then needNoFrameTag ft (needNoForce8 f8 (needNoSize sz (.ok .stringtoint)))
  else .error .reservedOpcode

/-- The decoder, total on the values of CMD (30_encoding.md R90 to R94). -/
def decode (c : Word) : Except DecodeError Instr :=
  if upperHalf c ≠ 0 then .error .upperHalfNotZero
  else if reservedBits c ≠ 0 then .error .reservedBitsNotZero
  else decodeFields (opField c) (ftField c) (f8Field c) (szField c)

/-- What the decoder reads from a word numbered as the opcode table numbers it: the table's 32 bits are
CMD[31:0], and CMD[63:32] is 0 (30_encoding.md R91, R97; log entry 15). -/
def decodeTableWord (nbits w : Nat) : Option Instr :=
  match decode (BitVec.ofNat 64 (w % 2 ^ nbits)) with
  | .ok i => some i
  | .error _ => none

/-- A command word from its fields (30_encoding.md R90). -/
def packFields (op ft f8 sz : Nat) : Word := BitVec.ofNat 64 (op + 16 * ft + 64 * f8 + 128 * sz)

/-- The encoder: the value of CMD that 30_encoding.md R98 gives a command. -/
def encode : Instr → Word
  | .nthbit => packFields 0x1 0 0 0
  | .partofbyte => packFields 0x2 0 0 0
  | .nthbyte ft => packFields 0x3 ft.toNat 0 0
  | .bytesfromto ft f8 => packFields 0x4 ft.toNat f8.toNat 0
  | .inttostring sz => packFields 0x5 0 0 sz.toNat
  | .stringtoint => packFields 0x6 0 0 0

end Sys2Proof
end

