-- ==== Sys2Proof/Machine/State.lean ====
section
/-! DEFINITION. The state of one WBC block (10_state.md), as plain data, and its value right after
reset (10_state.md R48). -/

namespace Sys2Proof.Machine

/-- The kinds of error of 60_exceptions.md R190. Codes 9 to 15 are never produced (U11). -/
inductive ErrorKind where
  | invalidInput
  | invalidBitIndex
  | unsupportedPart
  | frameTooShort
  | invalidFrameType
  | negativeFrame
  | unsupportedWidth
  | illegalRequest
  deriving DecidableEq, Repr

/-- What `raise E(val, bnd)` carries (00_scope.md R12, 60_exceptions.md R191). -/
structure Raise where
  kind : ErrorKind
  val : Word
  bnd : Word
  deriving DecidableEq, Repr

/-- What `return Ok(res, seq)` carries (00_scope.md R12, 10_state.md R43). -/
structure Output where
  res : Word
  seq : List Byte
  deriving DecidableEq, Repr

/-- The value of `Exec(S)` (10_state.md R43, R44). -/
abbrev Result := Except Raise Output

/-- Bytes by index, addresses strictly rising. An address that is not listed has not been written since
reset (log entry 6). -/
abbrev Memory := List Host.Cell

/-- The canonical form of `Memory`: two memories that read the same are the same list. -/
abbrev Memory.wf (m : Memory) : Prop := m.Pairwise fun x y => x.1 < y.1

/-- IBUF or OBUF: the bytes written since the last reset, and the number of that reset, at which the
bytes not written since were drawn (10_state.md R36, R37, R49; log entries 4 and 5). -/
structure Buffer where
  written : Memory
  draw : Nat
  deriving DecidableEq, Repr

/-- The snapshot S a command runs on (10_state.md R40). -/
structure Snapshot where
  cmd : Word
  opa : Word
  opb : Word
  opc : Word
  ilen : Word
  ibuf : Buffer
  deriving DecidableEq, Repr

/-- The command in flight: its snapshot and the clock cycles until it completes (10_state.md R42,
R47). -/
structure InFlight where
  snap : Snapshot
  remaining : Nat
  deriving DecidableEq, Repr

/-- What the outside world does to the block, one at a time (10_state.md R20, 20_memory.md R76, 70
R220, R230). Addresses are bus addresses. -/
inductive Event where
  /-- A host bus read of `size` bytes. -/
  | read (addr size : Nat)
  /-- A host bus write of `size` bytes of `v`. -/
  | write (addr size : Nat) (v : Word)
  /-- A block clock cycle passes. -/
  | clock
  /-- RST is driven to a level. -/
  | rst (asserted : Bool)
  deriving DecidableEq, Repr

/-- What the block answers on the bus; `error` is the bus error of BUS_ERR_ON_UNSUPPORTED (20_memory.md
R63). -/
inductive Reply where
  | readData (v : Word) (error : Bool)
  | writeAck (error : Bool)
  deriving DecidableEq, Repr

/-- The block has no fault: 60_exceptions.md R195. A failing command is an error completion, a next
state. -/
inductive Fault where
  deriving DecidableEq, Repr

/-- Where the model has no answer. -/
inductive Refusal where
  /-- Raised by `exec` for a command that has no meaning yet. Safe: the model stops. -/
  | notModelled (mnemonic : String)
  /-- Raised by a meaning that is asked for in a state with no command in flight: there is no snapshot
  to run on (10_state.md R40). No step asks for one (log entry 12). Safe: the model stops. -/
  | noCommandInFlight
  deriving DecidableEq, Repr

/-- The state of one block. STATUS.BUSY is `inFlight.isSome` (log entry 13); ID and CAP are constants. -/
structure State where
  /-- The OPEN parameters; no step changes them (log entry 1). CAP reads `params.bufCap`. -/
  params : Params
  /-- RST is asserted (70_reset_and_hazards.md R220). -/
  rst : Bool
  /-- CMD (10_state.md R27) -/
  cmd : Word
  /-- OPA (R23) -/
  opa : Word
  /-- OPB (R24) -/
  opb : Word
  /-- OPC (R25) -/
  opc : Word
  /-- ILEN (R26) -/
  ilen : Word
  /-- STATUS.ERR (R30) -/
  err : Bool
  /-- STATUS.VALID (R30) -/
  valid : Bool
  /-- STATUS.ECODE (R28, R30) -/
  ecode : BitVec 4
  /-- RES (R31) -/
  res : Word
  /-- OLEN (R32) -/
  olen : Word
  /-- ERRVAL (R35) -/
  errval : Word
  /-- ERRBND (R35) -/
  errbnd : Word
  /-- IBUF (R36) -/
  ibuf : Buffer
  /-- The stored bytes of OBUF (R37) -/
  obuf : Buffer
  /-- The command in flight, if there is one (R40, R47). -/
  inFlight : Option InFlight
  /-- The model's own: what the outside does next, oldest first (log entry 7). -/
  events : List Event
  /-- The model's own: what the block has answered, newest first (log entry 7). -/
  replies : List Reply
  /-- The model's own: how many free values have been drawn (log entry 3). -/
  draws : Nat
  deriving DecidableEq, Repr

/-- The block right after reset, for any choice of the OPEN parameters (10_state.md R48 to R50, 70
R220, R221). DESIGN CHOICE: the counters of the model's free values start at 0, in every block alike (log
entries 3, 4, 5 and 20). -/
def State.resetWith (p : Params) : State where
  params := p
  rst := false
  cmd := 0
  opa := 0
  opb := 0
  opc := 0
  ilen := 0
  err := false
  valid := false
  ecode := 0
  res := 0
  olen := 0
  errval := 0
  errbnd := 0
  ibuf := { written := [], draw := 0 }
  obuf := { written := [], draw := 0 }
  inFlight := none
  events := []
  replies := []
  draws := 0

/-- The block right after reset (10_state.md R48). -/
def State.reset : State := State.resetWith Config.params

end Sys2Proof.Machine
end

