-- ==== Sys2Proof/Machine/Flags.lean ====
section
/-! DEFINITION. STATUS and its fields (10_state.md R28 to R30, R39): the error codes of
60_exceptions.md R190, what a completion writes to ERR and ECODE, and the register as the host reads
it. No command sets a flag by its result value (R39). -/

namespace Sys2Proof.Machine

/-- The error codes of 60_exceptions.md R190. -/
def errorCode : ErrorKind → BitVec 4
  | .invalidInput => 1
  | .invalidBitIndex => 2
  | .unsupportedPart => 3
  | .frameTooShort => 4
  | .invalidFrameType => 5
  | .negativeFrame => 6
  | .unsupportedWidth => 7
  | .illegalRequest => 8

/-- STATUS.ERR after a completion (10_state.md R43, 60_exceptions.md R191). -/
def completionErr : Result → Bool
  | .ok _ => false
  | .error _ => true

/-- STATUS.ECODE after a completion (10_state.md R43, 60_exceptions.md R191). -/
def completionEcode : Result → BitVec 4
  | .ok _ => 0
  | .error e => errorCode e.kind

/-- STATUS.BUSY: a command is in flight (10_state.md R29, R47; log entry 13). -/
def State.busy (s : State) : Bool := s.inFlight.isSome

/-- STATUS as a word: BUSY, ERR and VALID in bits 0, 1 and 2, ECODE in bits 11:8, the rest 0
(10_state.md R28). -/
def statusWord (s : State) : Word :=
  BitVec.ofNat 64 (s.busy.toNat + 2 * s.err.toNat + 4 * s.valid.toNat + 256 * s.ecode.toNat)

end Sys2Proof.Machine
end

