-- ==== Sys2Proof/Machine/Readings.lean ====
section
/-! DEFINITION. The readings of a 64-bit word (00_scope.md R10). Arithmetic between them is exact, on
`Int` and `Nat`; only `lo64` narrows. -/

namespace Sys2Proof.Machine

/-- The unsigned reading `uint(v)` (00_scope.md R10). -/
abbrev uint (v : Word) : Nat := v.toNat

/-- The two's-complement reading `sint(v)` (00_scope.md R10; log entry 18). -/
abbrev sint (v : Word) : Int := v.toInt

/-- `lo64(z)`: the word that reads z mod 2^64 (00_scope.md R10). -/
def lo64 (z : Int) : Word := BitVec.ofInt 64 z

/-- `zext_64(x)` (00_scope.md R10). -/
def zext64 (n : Nat) (x : BitVec n) : Word := x.setWidth 64

/-- `sext_N(v)` (00_scope.md R10): defined by the spec for completeness; no command uses it. -/
def sext64 (n : Nat) (x : BitVec n) : Word := x.signExtend 64

end Sys2Proof.Machine
end

