-- ==== Sys2Proof/Machine/Ops.lean ====
section
/-! DEFINITION. The operations every command and every bus access is made of: bytes of the buffers,
issue (10_state.md R40), completion with and without error (R42, R43, 60_exceptions.md R191), reset
(70_reset_and_hazards.md R220) and the clock (R230). -/

namespace Sys2Proof.Machine

/-- The byte listed at `a`, if there is one. -/
def Memory.read : Memory → Nat → Option Byte
  | [], _ => none
  | (k, b) :: m, a => if a = k then some b else Memory.read m a

/-- Lists byte `b` at `a`, keeping the addresses strictly rising. -/
def Memory.write : Memory → Nat → Byte → Memory
  | [], a, b => [(a, b)]
  | (k, c) :: m, a, b =>
    if a < k then (a, b) :: (k, c) :: m
    else if a = k then (a, b) :: m
    else (k, c) :: Memory.write m a b

/-- Byte i of an input buffer: the byte written last, or the byte drawn at reset (10_state.md R36, R49;
log entry 4). -/
def ibufByte (b : Buffer) (i : Nat) : Byte :=
  (Memory.read b.written i).getD (Config.ibufAtReset b.draw i)

/-- The stored byte i of the output buffer (10_state.md R43, R48; log entry 5). -/
def obufByte (b : Buffer) (i : Nat) : Byte :=
  (Memory.read b.written i).getD (Config.obufAtReset b.draw i)

/-- OBUF[i] as the host reads it: 0x00 from OLEN on (10_state.md R37). -/
def State.obufRead (s : State) (i : Nat) : Byte :=
  if i < uint s.olen then obufByte s.obuf i else 0

/-- Stores one byte in a buffer. -/
def Buffer.store (b : Buffer) (i : Nat) (v : Byte) : Buffer :=
  { b with written := Memory.write b.written i v }

/-- Stores a sequence in a buffer from index `i` on, in increasing order (10_state.md R43). -/
def Buffer.storeAll : Buffer → Nat → List Byte → Buffer
  | b, _, [] => b
  | b, i, v :: vs => Buffer.storeAll (b.store i v) (i + 1) vs

/-- The latency of the k-th command: any number of clock cycles up to MAX_LATENCY (10_state.md R42, 70
R230; log entry 3). -/
def latency (p : Params) (k : Nat) : Nat :=
  if p.maxLatency = 0 then 0 else Config.latencyDraw k % (p.maxLatency + 1)

/-- The snapshot that issuing the word `v` latches (10_state.md R40). -/
def takeSnapshot (s : State) (v : Word) : Snapshot where
  cmd := v
  opa := s.opa
  opb := s.opb
  opc := s.opc
  ilen := s.ilen
  ibuf := s.ibuf

/-- Issue with a given latency (10_state.md R40): CMD, the snapshot and BUSY change, nothing else. -/
def issueAfter (s : State) (v : Word) (d : Nat) : State :=
  { s with cmd := v, inFlight := some { snap := takeSnapshot s v, remaining := d } }

/-- Issue (10_state.md R40); the latency is the next free value. -/
def issue (s : State) (v : Word) : State :=
  { issueAfter s v (latency s.params s.draws) with draws := s.draws + 1 }

/-- A host write of CMD (10_state.md R40, R41): ignored while a command is in flight. -/
def writeCmd (s : State) (v : Word) : State :=
  if s.busy then s else issue s v

/-- `raise E(val, bnd)` (00_scope.md R12). -/
def raise {α : Type} (e : ErrorKind) (val bnd : Word) : Except Raise α :=
  .error { kind := e, val := val, bnd := bnd }

/-- `return Ok(res, [])` (00_scope.md R12). -/
def okWord (res : Word) : Result := .ok { res := res, seq := [] }

/-- `return Ok(0, seq)` (00_scope.md R12). -/
def okBytes (seq : List Byte) : Result := .ok { res := 0, seq := seq }

/-- What every completion does besides its outputs (10_state.md R42, R43, 60_exceptions.md R191): ERR
and ECODE from the result, VALID to 1, BUSY to 0, the snapshot discarded. -/
def endCommand (s : State) (r : Result) : State :=
  { s with err := completionErr r, ecode := completionEcode r, valid := true, inFlight := none }

/-- A successful completion's outputs (10_state.md R43). -/
def completeOk (s : State) (o : Output) : State :=
  { endCommand s (.ok o) with
    res := o.res, olen := lo64 o.seq.length, obuf := s.obuf.storeAll 0 o.seq, errval := 0, errbnd := 0 }

/-- An error completion's outputs: the block's only exception (60_exceptions.md R191). No OBUF byte is
written. -/
def completeError (s : State) (e : Raise) : State :=
  { endCommand s (.error e) with res := 0, olen := 0, errval := e.val, errbnd := e.bnd }

/-- Completion (10_state.md R42). -/
def complete (s : State) : Result → State
  | .ok o => completeOk s o
  | .error e => completeError s e

/-- Completes the command in flight with what `f` makes of its snapshot (10_state.md R42, R45). -/
def completing (s : State) (f : Snapshot → Result) : Host.Outcome State Fault Refusal :=
  match s.inFlight with
  | some c => .next (complete s (f c.snap))
  | none => .refused .noCommandInFlight

/-- `Exec(S)` of a word that is no command (30_encoding.md R93). -/
def illegalWord (S : Snapshot) : Result := raise .illegalRequest S.cmd 0

/-- The registers and buffers after a reset (10_state.md R48, R49): the buffers' bytes are drawn
anew. -/
def resetRegisters (s : State) : State :=
  { s with
    cmd := 0, opa := 0, opb := 0, opc := 0, ilen := 0,
    err := false, valid := false, ecode := 0, res := 0, olen := 0, errval := 0, errbnd := 0,
    ibuf := { written := [], draw := s.ibuf.draw + 1 },
    obuf := { written := [], draw := s.obuf.draw + 1 },
    inFlight := none }

/-- RST driven to a level (70_reset_and_hazards.md R220, R222): asserting it abandons the command in
flight; when an asserted RST is released every register has its reset value (log entry 9). -/
def driveRst (s : State) (asserted : Bool) : State :=
  if asserted then { s with rst := true, inFlight := none }
  else if s.rst then { resetRegisters s with rst := false }
  else s

/-- A block clock cycle passes (70_reset_and_hazards.md R230). -/
def clockTick (s : State) : State :=
  match s.inFlight with
  | some c => { s with inFlight := some { c with remaining := c.remaining - 1 } }
  | none => s

end Sys2Proof.Machine
end

