-- ==== Sys2Proof/Machine/Bus.lean ====
section
/-! DEFINITION. The register window on the host's bus (10_state.md R22, 20_memory.md R61 to R65) and
what one event of the outside world does to the block (20_memory.md R76, 70_reset_and_hazards.md
R220). -/

namespace Sys2Proof.Machine

/-- The registers of 10_state.md R22. -/
inductive RegName where
  | cmd | opa | opb | opc | ilen | status | res | olen | errval | errbnd | id | cap
  deriving DecidableEq, Repr

/-- The offset of a register (20_memory.md R61). -/
def RegName.offset : RegName → Nat
  | .cmd => 0x000
  | .opa => 0x008
  | .opb => 0x010
  | .opc => 0x018
  | .ilen => 0x020
  | .status => 0x028
  | .res => 0x030
  | .olen => 0x038
  | .errval => 0x040
  | .errbnd => 0x048
  | .id => 0x050
  | .cap => 0x058

/-- Every register of the window. -/
def allRegisters : List RegName :=
  [.cmd, .opa, .opb, .opc, .ilen, .status, .res, .olen, .errval, .errbnd, .id, .cap]

/-- The register at an offset, if the offset is a register's (20_memory.md R61). -/
def registerAt (off : Nat) : Option RegName := allRegisters.find? fun r => r.offset == off

/-- The constant ID (10_state.md R33). -/
def idValue : Word := 0x5742430000000001

/-- CAP: BUF_CAP in bits 15:0, 0 above (10_state.md R34). -/
def capValue (p : Params) : Word := zext64 16 (BitVec.ofNat 16 p.bufCap)

/-- A register as the host reads it (10_state.md R22 to R35). -/
def readRegister (s : State) : RegName → Word
  | .cmd => s.cmd
  | .opa => s.opa
  | .opb => s.opb
  | .opc => s.opc
  | .ilen => s.ilen
  | .status => statusWord s
  | .res => s.res
  | .olen => s.olen
  | .errval => s.errval
  | .errbnd => s.errbnd
  | .id => idValue
  | .cap => capValue s.params

/-- A host write of a whole register (10_state.md R22 to R28, R38): a write to a read-only register is
ignored. -/
def writeRegister (s : State) (r : RegName) (v : Word) : State :=
  match r with
  | .cmd => writeCmd s v
  | .opa => { s with opa := v }
  | .opb => { s with opb := v }
  | .opc => { s with opc := v }
  | .ilen => { s with ilen := v }
  | .status | .res | .olen | .errval | .errbnd | .id | .cap => s

/-- What a supported access reaches (20_memory.md R61). -/
inductive Location where
  | register (r : RegName)
  | ibuf (i : Nat)
  | obuf (i : Nat)
  | reserved
  deriving DecidableEq, Repr

/-- The location of an access at a window offset, or none when its size or alignment is unsupported
(20_memory.md R61 to R64): 8 bytes at multiples of 8 below 0x1000, single bytes from there on (log
entry 10). -/
def locate (bufCap off size : Nat) : Option Location :=
  if off < 0x1000 then
    if size = 8 ∧ off % 8 = 0 then
      some (match registerAt off with
        | some r => .register r
        | none => .reserved)
    else none
  else if off < 0x2000 then
    if size = 1 then some (if off - 0x1000 < bufCap then .ibuf (off - 0x1000) else .reserved)
    else none
  else if off < 0x3000 then
    if size = 1 then some (if off - 0x2000 < bufCap then .obuf (off - 0x2000) else .reserved)
    else none
  else none

/-- The value at a location as the host reads it (20_memory.md R62, R64; log entry 16). -/
def readLocation (s : State) : Location → Word
  | .register r => readRegister s r
  | .ibuf i => zext64 8 (ibufByte s.ibuf i)
  | .obuf i => zext64 8 (s.obufRead i)
  | .reserved => 0

/-- A host write to a location (20_memory.md R62, R64, 10_state.md R36 to R38; log entry 16). -/
def writeLocation (s : State) (l : Location) (v : Word) : State :=
  match l with
  | .register r => writeRegister s r v
  | .ibuf i => { s with ibuf := s.ibuf.store i (v.setWidth 8) }
  | .obuf _ => s
  | .reserved => s

/-- `MemRead(off, size)` (20_memory.md R62 to R64): 0 for an unsupported access, and 0 while RST is
asserted (70_reset_and_hazards.md R220). -/
def memRead (s : State) (off size : Nat) : Word :=
  if s.rst then 0
  else
    match locate s.params.bufCap off size with
    | some l => readLocation s l
    | none => 0

/-- `MemWrite(off, size, v)` (20_memory.md R62 to R64): nothing for an unsupported access, and nothing
while RST is asserted (70_reset_and_hazards.md R220). -/
def memWrite (s : State) (off size : Nat) (v : Word) : State :=
  if s.rst then s
  else
    match locate s.params.bufCap off size with
    | some l => writeLocation s l v
    | none => s

/-- Whether the bus reports an error for an access (20_memory.md R63, U6; log entry 10). -/
def busError (s : State) (off size : Nat) : Bool :=
  s.params.busErrOnUnsupported && (locate s.params.bufCap off size).isNone

/-- The window offset of a bus address, or none outside the window of 0x3000 bytes at WBC_BASE
(20_memory.md R60, R61). -/
def windowOffset (p : Params) (addr : Nat) : Option Nat :=
  if p.wbcBase ≤ addr ∧ addr < p.wbcBase + 0x3000 then some (addr - p.wbcBase) else none

/-- A host read at a window offset: no effect but the answer (20_memory.md R65). -/
def hostRead (s : State) (off size : Nat) : State :=
  { s with replies := .readData (memRead s off size) (busError s off size) :: s.replies }

/-- A host write at a window offset. -/
def hostWrite (s : State) (off size : Nat) (v : Word) : State :=
  { memWrite s off size v with replies := .writeAck (busError s off size) :: s.replies }

/-- One event of the outside world. A bus access outside the window is not the block's (log entry
11). -/
def applyEvent (s : State) : Event → State
  | .read addr size =>
    match windowOffset s.params addr with
    | some off => hostRead s off size
    | none => s
  | .write addr size v =>
    match windowOffset s.params addr with
    | some off => hostWrite s off size v
    | none => s
  | .clock => clockTick s
  | .rst asserted => driveRst s asserted

/-- What happens when no completion is due: the next event takes effect, and with none waiting a clock
cycle passes (20_memory.md R76; log entries 2 and 7). -/
def nextEvent (s : State) : State :=
  match s.events with
  | e :: rest => applyEvent { s with events := rest } e
  | [] => clockTick s

/-- Whether the command in flight completes now (10_state.md R42; log entry 2): its delay is over and
RST is not asserted (70_reset_and_hazards.md R220). -/
def completionDue (s : State) : Option Snapshot :=
  if s.rst then none
  else
    match s.inFlight with
    | some c => if c.remaining = 0 then some c.snap else none
    | none => none

end Sys2Proof.Machine
end

