-- ==== Sys2Proof/Machine/Frames.lean ====
section
/-! DEFINITION. Integers and byte sequences (20_memory.md R67, R70 to R72): everything big-endian, byte
0 the most significant. -/

namespace Sys2Proof.Machine

/-- `w(n)`, the significant-byte width (20_memory.md R70), for n < 2^64. Zero has width 1. -/
def width (n : Nat) : Nat :=
  if n < 2 ^ 8 then 1
  else if n < 2 ^ 16 then 2
  else if n < 2 ^ 24 then 3
  else if n < 2 ^ 32 then 4
  else if n < 2 ^ 40 then 5
  else if n < 2 ^ 48 then 6
  else if n < 2 ^ 56 then 7
  else 8

/-- `Be(n)`, the minimal big-endian byte sequence (20_memory.md R71). -/
def be (n : Nat) : List Byte :=
  (List.range (width n)).map fun i => BitVec.ofNat 8 (n >>> (8 * (width n - 1 - i)))

/-- `Fold(s)`, the big-endian fold (20_memory.md R72). -/
def fold (s : List Byte) : Nat := s.foldl (fun acc b => acc * 256 + b.toNat) 0

end Sys2Proof.Machine
end

