-- ==== Sys2Proof/Machine/Operands.lean ====
section
/-! DEFINITION. How a command reads its operands from its snapshot (30_encoding.md R95), and the frame
view (20_memory.md R74). -/

namespace Sys2Proof.Machine

/-- `byte` of NTHBIT and PARTOFBYTE (R95). -/
abbrev byteOperand (S : Snapshot) : Int := sint S.opa

/-- `bitNumber` of NTHBIT (R95). -/
abbrev bitNumberOperand (S : Snapshot) : Int := sint S.opb

/-- `part` of PARTOFBYTE (R95). -/
abbrev partOperand (S : Snapshot) : Int := sint S.opb

/-- `byteNumber` of NTHBYTE (R95). -/
abbrev byteNumberOperand (S : Snapshot) : Int := sint S.opb

/-- `from` of BYTESFROMTO (R95). -/
abbrev fromOperand (S : Snapshot) : Int := sint S.opb

/-- `to` of BYTESFROMTO (R95). -/
abbrev toOperand (S : Snapshot) : Int := sint S.opc

/-- The integer-form frame of NTHBYTE and BYTESFROMTO (R95). -/
abbrev integerFrameOperand (S : Snapshot) : Int := sint S.opa

/-- `n` of INTTOSTRING, read unsigned (R95, 90_conflicts.md C2). -/
abbrev integerOperand (S : Snapshot) : Nat := uint S.opa

/-- `size` of INTTOSTRING when SZ = 1 (R95). -/
abbrev sizeOperand (S : Snapshot) : Int := sint S.opb

/-- The byte sequence [S.ibuf[0], …, S.ibuf[uint(S.ilen) − 1]] (R95, 20_memory.md R74). -/
def inputBytes (S : Snapshot) : List Byte := (List.range (uint S.ilen)).map (ibufByte S.ibuf)

/-- The input frame held in IBUF, or IllegalRequest when ILEN is larger than the buffer (20_memory.md
R74, 42_integer_converter.md R171). -/
def inputFrame (bufCap : Nat) (S : Snapshot) : Except Raise (List Byte) :=
  if uint S.ilen > bufCap then raise .illegalRequest S.ilen (lo64 bufCap)
  else .ok (inputBytes S)

/-- `FrameView(S)` (20_memory.md R74). -/
def frameView (bufCap : Nat) (ft : BitVec 2) (S : Snapshot) : Except Raise (List Byte) :=
  if ft = 0 then inputFrame bufCap S
  else if ft = 1 then
    if integerFrameOperand S < 0 then raise .negativeFrame S.opa 0
    else .ok (be (integerFrameOperand S).toNat)
  else raise .invalidFrameType (zext64 2 ft) 1

end Sys2Proof.Machine
end

