-- ==== Sys2Proof/Machine/BitAccessor.lean ====
section
/-! DEFINITION. The bit-field extractor: NTHBIT and PARTOFBYTE (40_bit_accessor.md R120, R121). -/

namespace Sys2Proof.Machine

/-- R120's mask 2^(8 − k), as a byte. -/
def bitMask (k : Nat) : Byte := BitVec.ofNat 8 (2 ^ (8 - k))

/-- R120's pseudocode. -/
def nthbitResult (S : Snapshot) : Result :=
  if byteOperand S < 0 ∨ byteOperand S > 255 then raise .invalidInput S.opa 255
  else if bitNumberOperand S < 1 ∨ bitNumberOperand S > 8 then raise .invalidBitIndex S.opb 8
  else if S.opa.setWidth 8 &&& bitMask (bitNumberOperand S).toNat ≠ 0 then okWord 1
  else okWord 0

/-- NTHBIT (40_bit_accessor.md R120). -/
def execNthbit (s : State) : Host.Outcome State Fault Refusal := completing s nthbitResult

/-- The high nibble of R121: (byte AND 0xF0) >> 4. -/
def highNibble (b : Byte) : Byte := (b &&& 0xF0) >>> 4

/-- The low nibble of R121: byte AND 0x0F. -/
def lowNibble (b : Byte) : Byte := b &&& 0x0F

/-- R121's pseudocode. -/
def partofbyteResult (S : Snapshot) : Result :=
  if byteOperand S < 0 ∨ byteOperand S > 255 then raise .invalidInput S.opa 255
  else if partOperand S = 1 then okWord (zext64 8 (highNibble (S.opa.setWidth 8)))
  else if partOperand S = 2 then okWord (zext64 8 (lowNibble (S.opa.setWidth 8)))
  else raise .unsupportedPart S.opb 2

/-- PARTOFBYTE (40_bit_accessor.md R121). -/
def execPartofbyte (s : State) : Host.Outcome State Fault Refusal := completing s partofbyteResult

end Sys2Proof.Machine
end

