-- ==== Sys2Proof/Machine/ByteRange.lean ====
section
/-! DEFINITION. The byte-range serializer: NTHBYTE and BYTESFROMTO (41_byte_range.md R140, R141). -/

namespace Sys2Proof.Machine

/-- R140's pseudocode after the frame view: the byte of the frame at the index. -/
def byteAtIndex (S : Snapshot) (F : List Byte) : Result :=
  if byteNumberOperand S < 0 ∨ byteNumberOperand S ≥ F.length then
    raise .frameTooShort S.opb (lo64 F.length)
  else okWord (zext64 8 (F.getD (byteNumberOperand S).toNat 0))

/-- R140's pseudocode. -/
def nthbyteResult (bufCap : Nat) (ft : BitVec 2) (S : Snapshot) : Result :=
  match frameView bufCap ft S with
  | .error e => .error e
  | .ok F => byteAtIndex S F

/-- NTHBYTE (41_byte_range.md R140). -/
def execNthbyte (ft : BitVec 2) (s : State) : Host.Outcome State Fault Refusal :=
  completing s (nthbyteResult s.params.bufCap ft)

/-- The widest range R141 allows: 8 with force8Bytes, else 7. -/
def maxWidth (f8 : Bool) : Int := if f8 then 8 else 7

/-- The width of the range, an exact integer (R141). -/
abbrev rangeWidth (S : Snapshot) : Int := toOperand S - fromOperand S + 1

/-- `F[a .. a + n − 1]` (00_scope.md R11). -/
def subrange (F : List Byte) (a n : Nat) : List Byte := (F.drop a).take n

/-- R141's pseudocode after the frame view: the bounds and the fold. -/
def foldRange (S : Snapshot) (F : List Byte) : Result :=
  if fromOperand S < 0 then raise .frameTooShort S.opb (lo64 F.length)
  else if toOperand S ≥ F.length then raise .frameTooShort S.opc (lo64 F.length)
  else okWord (lo64 (fold (subrange F (fromOperand S).toNat (rangeWidth S).toNat)))

/-- R141's pseudocode: the width before the frame view, the frame view before the bounds. -/
def bytesfromtoResult (bufCap : Nat) (ft : BitVec 2) (f8 : Bool) (S : Snapshot) : Result :=
  if rangeWidth S < 1 ∨ rangeWidth S > maxWidth f8 then
    raise .unsupportedWidth (lo64 (rangeWidth S)) (lo64 (maxWidth f8))
  else
    match frameView bufCap ft S with
    | .error e => .error e
    | .ok F => foldRange S F

/-- BYTESFROMTO (41_byte_range.md R141). -/
def execBytesfromto (ft : BitVec 2) (f8 : Bool) (s : State) : Host.Outcome State Fault Refusal :=
  completing s (bytesfromtoResult s.params.bufCap ft f8)

end Sys2Proof.Machine
end

