-- ==== Sys2Proof/Machine/IntegerConverter.lean ====
section
/-! DEFINITION. The fixed-width integer and byte-sequence converter: INTTOSTRING and STRINGTOINT
(42_integer_converter.md R170, R171). -/

namespace Sys2Proof.Machine

/-- R170: the last `size` bytes of N, or N padded with zero bytes on the left. -/
def fitBytes (size : Nat) (N : List Byte) : List Byte :=
  if size ≤ N.length then N.drop (N.length - size)
  else List.replicate (size - N.length) 0 ++ N

/-- R170's pseudocode. -/
def inttostringResult (bufCap : Nat) (sz : Bool) (S : Snapshot) : Result :=
  if sz then
    if sizeOperand S < 0 ∨ sizeOperand S > bufCap then raise .unsupportedWidth S.opb (lo64 bufCap)
    else okBytes (fitBytes (sizeOperand S).toNat (be (integerOperand S)))
  else okBytes (be (integerOperand S))

/-- INTTOSTRING (42_integer_converter.md R170). -/
def execInttostring (sz : Bool) (s : State) : Host.Outcome State Fault Refusal :=
  completing s (inttostringResult s.params.bufCap sz)

/-- R171's pseudocode. -/
def stringtointResult (bufCap : Nat) (S : Snapshot) : Result :=
  match inputFrame bufCap S with
  | .error e => .error e
  | .ok F => if uint S.ilen > 8 then raise .unsupportedWidth S.ilen 8 else okWord (lo64 (fold F))

/-- STRINGTOINT (42_integer_converter.md R171). -/
def execStringtoint (s : State) : Host.Outcome State Fault Refusal :=
  completing s (stringtointResult s.params.bufCap)

end Sys2Proof.Machine
end

