-- ==== Sys2Proof/Machine/Dispatch.lean ====
section
/-! DEFINITION. The dispatch of a legal command (10_state.md R44), one arm per command. -/

namespace Sys2Proof.Machine

def exec (i : Instr) (s : State) : Host.Outcome State Fault Refusal :=
  match i with
  | .nthbit => Sys2Proof.Machine.execNthbit s
  | .partofbyte => Sys2Proof.Machine.execPartofbyte s
  | .nthbyte ft => Sys2Proof.Machine.execNthbyte ft s
  | .bytesfromto ft f8 => Sys2Proof.Machine.execBytesfromto ft f8 s
  | .inttostring sz => Sys2Proof.Machine.execInttostring sz s
  | .stringtoint => Sys2Proof.Machine.execStringtoint s

end Sys2Proof.Machine
end

