-- ==== Sys2Proof/Machine/Step.lean ====
section
/-! DEFINITION. One step of the block: a due completion (10_state.md R42, R44), or else one event of the
outside world (log entry 2). -/

namespace Sys2Proof.Machine

/-- One step. A due completion decodes the snapshot's command word and runs the command, or completes
with IllegalRequest when the word is no command (30_encoding.md R93). -/
def step (s : State) : Host.Outcome State Fault Refusal :=
  match completionDue s with
  | some S =>
    match decode S.cmd with
    | .ok i => exec i s
    | .error _ => completing s illegalWord
  | none => .next (nextEvent s)

/-- The command word issued in `s` with its completion due at once (log entry 8): the block fetches
nothing, a command is run by issuing it (10_state.md R21, R40). -/
def State.withFetchWord (s : State) (nbits w : Nat) : State :=
  { issueAfter s (BitVec.ofNat 64 (w % 2 ^ nbits)) 0 with rst := false }

end Sys2Proof.Machine
end

