-- ==== Sys2Proof/Machine/HostProgram.lean ====
section
/-! DEFINITION. A layer above the block: the spellings of the commands (30_encoding.md R98), the host
statements (R99) and the call forms (R100), and a host that runs statements against one block. It
belongs to the host, not to the block (R99), so nothing of it stands in `State`. -/

namespace Sys2Proof.Machine

/-- The 17 legal commands (30_encoding.md R92, R98). -/
def allCommands : List Instr :=
  [.nthbit, .partofbyte, .nthbyte 0, .nthbyte 1, .nthbyte 2, .nthbyte 3,
   .bytesfromto 0 false, .bytesfromto 1 false, .bytesfromto 2 false, .bytesfromto 3 false,
   .bytesfromto 0 true, .bytesfromto 1 true, .bytesfromto 2 true, .bytesfromto 3 true,
   .inttostring false, .inttostring true, .stringtoint]

/-- The frame suffix (R98). -/
def frameSuffix (ft : BitVec 2) : String :=
  if ft = 0 then ".B" else if ft = 1 then ".I" else if ft = 2 then ".T2" else ".T3"

/-- The spelling of a command (R98). -/
def spelling : Instr → String
  | .nthbit => "NTHBIT"
  | .partofbyte => "PARTOFBYTE"
  | .nthbyte ft => "NTHBYTE" ++ frameSuffix ft
  | .bytesfromto ft f8 => "BYTESFROMTO" ++ frameSuffix ft ++ (if f8 then ".F8" else "")
  | .inttostring sz => "INTTOSTRING" ++ (if sz then ".SZ" else "")
  | .stringtoint => "STRINGTOINT"

/-- The assembler (R98): a spelling that is not in the table is refused. -/
def assemble (m : String) : Option Instr := allCommands.find? fun i => spelling i == m

/-- An operand of a host statement: a number or a host variable h0 to h7 (R99). -/
inductive HostVal where
  | num (v : Word)
  | var (h : Fin 8)
  deriving DecidableEq, Repr

/-- The host statements (R99). `label` marks a place in the program; `WRB IBUF, [b0, …]` is
`loadBytes`. -/
inductive Stmt where
  | wr (r : RegName) (v : HostVal)
  | wrb (i b : HostVal)
  | rd (h : Fin 8) (r : RegName)
  | rdbIbuf (h : Fin 8) (i : HostVal)
  | rdbObuf (h : Fin 8) (i : HostVal)
  | issue (m : Instr)
  | wait
  | jerr (l : Nat)
  | set (h : Fin 8) (v : HostVal)
  | add (h : Fin 8) (a b : HostVal)
  | and (h : Fin 8) (a b : HostVal)
  | blt (a b : HostVal) (l : Nat)
  | beq (a b : HostVal) (l : Nat)
  | jmp (l : Nat)
  | label (l : Nat)
  | halt
  deriving DecidableEq, Repr

/-- The label a statement may jump to. -/
def Stmt.target : Stmt → Option Nat
  | .jerr l | .blt _ _ l | .beq _ _ l | .jmp l => some l
  | _ => none

/-- Every label jumped to stands in the program. -/
def programWellFormed (p : List Stmt) : Bool :=
  p.all fun st =>
    match st.target with
    | some l => p.contains (.label l)
    | none => true

/-- `WRB IBUF, [b0, …, bk]`: one byte write each, in increasing order (R99). Each element is an operand
like any `b`, a number or a host variable (DESIGN CHOICE, log entry 17). -/
def loadBytes (elements : List HostVal) : List Stmt :=
  (List.range elements.length).map fun i =>
    .wrb (.num (BitVec.ofNat 64 i)) (elements.getD i (.num 0))

/-- The call forms (R100). -/
inductive CallForm where
  | loadframe (elements : List HostVal)
  | nthbit (a b : HostVal)
  | partofbyte (a p : HostVal)
  | nthbyteB (k : HostVal)
  | nthbyteI (n k : HostVal)
  | bytesfromtoB (f8 : Bool) (f t : HostVal)
  | bytesfromtoI (f8 : Bool) (n f t : HostVal)
  | inttostring (n : HostVal)
  | inttostringSz (n s : HostVal)
  | stringtoint
  deriving DecidableEq, Repr

/-- The expansions of the call forms (R100). -/
def CallForm.expand : CallForm → List Stmt
  | .loadframe elements =>
    loadBytes elements ++ [.wr .ilen (.num (BitVec.ofNat 64 elements.length))]
  | .nthbit a b => [.wr .opa a, .wr .opb b, .issue .nthbit, .wait]
  | .partofbyte a p => [.wr .opa a, .wr .opb p, .issue .partofbyte, .wait]
  | .nthbyteB k => [.wr .opb k, .issue (.nthbyte 0), .wait]
  | .nthbyteI n k => [.wr .opa n, .wr .opb k, .issue (.nthbyte 1), .wait]
  | .bytesfromtoB f8 f t => [.wr .opb f, .wr .opc t, .issue (.bytesfromto 0 f8), .wait]
  | .bytesfromtoI f8 n f t => [.wr .opa n, .wr .opb f, .wr .opc t, .issue (.bytesfromto 1 f8), .wait]
  | .inttostring n => [.wr .opa n, .issue (.inttostring false), .wait]
  | .inttostringSz n s => [.wr .opa n, .wr .opb s, .issue (.inttostring true), .wait]
  | .stringtoint => [.issue .stringtoint, .wait]

/-- A host: its program, where it stands in it, and h0 to h7 (R99). -/
structure HostAgent where
  program : List Stmt
  pos : Nat
  vars : Vector Word 8
  deriving DecidableEq, Repr

/-- A host and the block it drives. -/
structure System where
  host : HostAgent
  block : State
  deriving DecidableEq, Repr

/-- The value of an operand. -/
def hostVal (a : HostAgent) : HostVal → Word
  | .num v => v
  | .var h => a.vars.get h

/-- `h <- v`, and on to the next statement. -/
def setVar (a : HostAgent) (h : Fin 8) (v : Word) : HostAgent :=
  { a with vars := a.vars.set h.val v h.isLt, pos := a.pos + 1 }

/-- On to the next statement. -/
def advance (a : HostAgent) : HostAgent := { a with pos := a.pos + 1 }

/-- Continue at a label. DESIGN CHOICE: at the first place that carries it, and a label that is not in the
program ends it (log entry 17). -/
def jumpTo (a : HostAgent) (l : Nat) : HostAgent :=
  { a with pos := (a.program.findIdx? fun st => st == .label l).getD a.program.length }

/-- Continue at a label if the condition holds. -/
def branch (a : HostAgent) (c : Bool) (l : Nat) : HostAgent := if c then jumpTo a l else advance a

/-- The host's read at a window offset: the block after it and the value read. Beyond the window the
platform answers, with a free value (log entry 17). -/
def systemRead (b : State) (off size : Nat) : State × Word :=
  if off < 0x3000 then (hostRead b off size, memRead b off size)
  else ({ b with draws := b.draws + 1 }, Config.platformData b.draws)

/-- The host's write at a window offset. Beyond the window it is not the block's. -/
def systemWrite (b : State) (off size : Nat) (v : Word) : State :=
  if off < 0x3000 then hostWrite b off size v else b

/-- The host reads a value into a variable. -/
def readInto (sys : System) (h : Fin 8) (off size : Nat) : System :=
  let r := systemRead sys.block off size
  { host := setVar sys.host h r.2, block := r.1 }

/-- The host reads STATUS and goes on with what `f` makes of it. -/
def readStatus (sys : System) (f : Word → HostAgent) : System :=
  let r := systemRead sys.block RegName.status.offset 8
  { host := f r.2, block := r.1 }

/-- One host statement (R99); a statement makes at most one bus access, and `WAIT` reads STATUS once a
turn until BUSY is 0. DESIGN CHOICE: the index i of IBUF[i] and OBUF[i] is read unsigned and added to
0x1000 or 0x2000 exactly, with no wrap (log entry 17). -/
def runStmt (sys : System) : Stmt → System
  | .wr r v =>
    { host := advance sys.host, block := systemWrite sys.block r.offset 8 (hostVal sys.host v) }
  | .wrb i b =>
    { host := advance sys.host
      block := systemWrite sys.block (0x1000 + uint (hostVal sys.host i)) 1 (hostVal sys.host b) }
  | .rd h r => readInto sys h r.offset 8
  | .rdbIbuf h i => readInto sys h (0x1000 + uint (hostVal sys.host i)) 1
  | .rdbObuf h i => readInto sys h (0x2000 + uint (hostVal sys.host i)) 1
  | .issue m =>
    { host := advance sys.host, block := systemWrite sys.block RegName.cmd.offset 8 (encode m) }
  | .wait => readStatus sys fun st => if st.getLsbD 0 then sys.host else advance sys.host
  | .jerr l => readStatus sys fun st => branch sys.host (st.getLsbD 1) l
  | .set h v => { sys with host := setVar sys.host h (hostVal sys.host v) }
  | .add h a b =>
    { sys with host := setVar sys.host h (lo64 (uint (hostVal sys.host a) + uint (hostVal sys.host b))) }
  | .and h a b => { sys with host := setVar sys.host h (hostVal sys.host a &&& hostVal sys.host b) }
  | .blt a b l =>
    { sys with host := branch sys.host (decide (uint (hostVal sys.host a) < uint (hostVal sys.host b))) l }
  | .beq a b l => { sys with host := branch sys.host (hostVal sys.host a == hostVal sys.host b) l }
  | .jmp l => { sys with host := jumpTo sys.host l }
  | .label _ => { sys with host := advance sys.host }
  | .halt => sys

/-- The host's turn; past the end of its program it does nothing (log entry 17). -/
def System.hostTurn (sys : System) : System :=
  match sys.host.program[sys.host.pos]? with
  | some st => runStmt sys st
  | none => sys

/-- The block's turn. Which turn comes when is the caller's choice (70_reset_and_hazards.md R231). -/
def System.blockTurn (sys : System) : Host.Outcome System Fault Refusal :=
  match step sys.block with
  | .next b => .next { sys with block := b }
  | .fault r => .fault r
  | .refused r => .refused r

end Sys2Proof.Machine
end

