-- ==== Sys2Proof/Machine/Platform.lean ====
section
/-! DEFINITION. A layer above the block: a platform with N_INST blocks (60_exceptions.md R203). Each has
its own registers, buffers and snapshot, and they share nothing. DESIGN CHOICE: each has its own
`Params` too (log entry 19). -/

namespace Sys2Proof.Machine

/-- The blocks of one platform. -/
structure Platform where
  blocks : List State
  deriving DecidableEq, Repr

/-- Two windows do not overlap. DESIGN CHOICE: the spec does not say whether they may (log entry 19). -/
def windowsDisjoint (a b : Params) : Bool :=
  decide (a.wbcBase + 0x3000 ≤ b.wbcBase) || decide (b.wbcBase + 0x3000 ≤ a.wbcBase)

/-- N_INST blocks, at least one (00_scope.md R7), each with legal parameters. DESIGN
CHOICE: in windows that do not overlap, each with a BUF_CAP, a MAX_LATENCY and a BUS_ERR_ON_UNSUPPORTED
of its own (log entry 19). -/
def Platform.wellFormed (p : Platform) : Bool :=
  decide (1 ≤ p.blocks.length) &&
    p.blocks.all (fun s => s.params.wellFormed && s.params.nInst == p.blocks.length) &&
    decide (p.blocks.Pairwise fun s t => windowsDisjoint s.params t.params = true)

/-- Block number `k` takes a step, and the others none. Which block steps when is the caller's choice
(60_exceptions.md R203, 93 U20). -/
def Platform.stepBlock (p : Platform) (k : Nat) : Host.Outcome Platform Fault Refusal :=
  match p.blocks[k]? with
  | none => .next p
  | some s =>
    match step s with
    | .next t => .next { blocks := p.blocks.set k t }
    | .fault r => .fault r
    | .refused r => .refused r

/-- One event more waits at a block. -/
def State.deliver (s : State) (e : Event) : State := { s with events := s.events ++ [e] }

/-- An event that reaches every block: a bus access, which the block takes whose window holds the
address, or a level of an RST or a clock that all blocks share. Whether blocks share an RST or a clock
the spec does not say, and the caller chooses this or `deliverTo` (DESIGN CHOICE, log entry 21). -/
def Platform.deliver (p : Platform) (e : Event) : Platform :=
  { blocks := p.blocks.map fun s => s.deliver e }

/-- An event that reaches block number `k` alone: a level of an RST or a clock of its own (log entry
21). -/
def Platform.deliverTo (p : Platform) (k : Nat) (e : Event) : Platform :=
  match p.blocks[k]? with
  | none => p
  | some s => { blocks := p.blocks.set k (s.deliver e) }

end Sys2Proof.Machine
end

