-- ==== Sys2Proof/Safety.lean ====
section
/-! DEFINITION. The terms claims are stated in: what the host can see of a completed command, what a
successful and a failed completion are, and the invariant of a block. -/

namespace Sys2Proof.Machine

/-- A state with command snapshot `S` in flight and its completion due. -/
def issued (s : State) (S : Snapshot) : State := { s with inFlight := some { snap := S, remaining := 0 } }

/-- The state after a command of `s` failed with `e(val, bnd)` (60_exceptions.md R191): nothing that is
not named here differs from `s`, and no OBUF byte is written. -/
def errorReport (s : State) (e : ErrorKind) (val bnd : Word) : State :=
  { s with
    inFlight := none, valid := true, err := true, ecode := errorCode e, res := 0, olen := 0,
    errval := val, errbnd := bnd }

/-- The state after a command of `s` succeeded with the word `r` and no byte (10_state.md R43). -/
def wordReport (s : State) (r : Word) : State :=
  { s with
    inFlight := none, valid := true, err := false, ecode := 0, res := r, olen := 0, errval := 0,
    errbnd := 0 }

/-- `t` is a state after a command of `s` succeeded with the bytes `seq` (10_state.md R37, R43). -/
structure BytesReport (s : State) (seq : List Byte) (t : State) : Prop where
  /-- Every field but OBUF. -/
  registers : t = { s with
    inFlight := none, valid := true, err := false, ecode := 0, res := 0,
    olen := BitVec.ofNat 64 seq.length, errval := 0, errbnd := 0, obuf := t.obuf }
  /-- What the host reads in OBUF, at every index. -/
  shown : ∀ i, t.obufRead i = seq.getD i 0
  /-- The stored bytes above the output are untouched. -/
  kept : ∀ i, seq.length ≤ i → obufByte t.obuf i = obufByte s.obuf i

/-- Command `i` completes in `s` with an error. -/
def FailsWith (i : Instr) (s : State) (e : ErrorKind) (val bnd : Word) : Prop :=
  exec i s = .next (errorReport s e val bnd)

/-- Command `i` completes in `s` with the result word `r`. -/
def GivesWord (i : Instr) (s : State) (r : Word) : Prop := exec i s = .next (wordReport s r)

/-- Command `i` completes in `s` with the output bytes `seq`. -/
def GivesBytes (i : Instr) (s : State) (seq : List Byte) : Prop :=
  ∃ t, exec i s = .next t ∧ BytesReport s seq t

/-- The two states report the same outcome of their last command (10_state.md R45). -/
structure SameReport (t u : State) : Prop where
  res : t.res = u.res
  olen : t.olen = u.olen
  err : t.err = u.err
  ecode : t.ecode = u.ecode
  errval : t.errval = u.errval
  errbnd : t.errbnd = u.errbnd
  obuf : ∀ i, t.obufRead i = u.obufRead i

/-- Two snapshots hold the same byte-sequence frame: ILEN and the bytes of IBUF below it. -/
structure SameInput (S T : Snapshot) : Prop where
  ilen : S.ilen = T.ilen
  bytes : ∀ j, j < uint S.ilen → ibufByte S.ibuf j = ibufByte T.ibuf j

/-- Two snapshots agree on what command `i` reads (30_encoding.md R95): nothing else may matter to it. -/
def ReadsSame (i : Instr) (S T : Snapshot) : Prop :=
  match i with
  | .nthbit => S.opa = T.opa ∧ S.opb = T.opb
  | .partofbyte => S.opa = T.opa ∧ S.opb = T.opb
  | .nthbyte ft => S.opb = T.opb ∧ (ft = 0 → SameInput S T) ∧ (ft = 1 → S.opa = T.opa)
  | .bytesfromto ft _ =>
    S.opb = T.opb ∧ S.opc = T.opc ∧ (ft = 0 → SameInput S T) ∧ (ft = 1 → S.opa = T.opa)
  | .inttostring sz => S.opa = T.opa ∧ (sz = true → S.opb = T.opb)
  | .stringtoint => SameInput S T

/-- The register values of 10_state.md R48, with no byte of IBUF written (R49). -/
structure HasResetValues (t : State) : Prop where
  rst : t.rst = false
  cmd : t.cmd = 0
  opa : t.opa = 0
  opb : t.opb = 0
  opc : t.opc = 0
  ilen : t.ilen = 0
  status : statusWord t = 0
  res : t.res = 0
  olen : t.olen = 0
  errval : t.errval = 0
  errbnd : t.errbnd = 0
  ibuf : t.ibuf.written = []
  inFlight : t.inFlight = none

/-- A completion left everything alone that is no output: the inputs, IBUF, the parameters, RST and
what the outside does (60_exceptions.md R194). -/
structure KeepsInputs (s t : State) : Prop where
  cmd : t.cmd = s.cmd
  opa : t.opa = s.opa
  opb : t.opb = s.opb
  opc : t.opc = s.opc
  ilen : t.ilen = s.ilen
  ibuf : ∀ i, ibufByte t.ibuf i = ibufByte s.ibuf i
  params : t.params = s.params
  rst : t.rst = s.rst
  events : t.events = s.events
  replies : t.replies = s.replies
  draws : t.draws = s.draws

/-- The host-visible outputs are as before (10_state.md R40). -/
structure KeepsOutputs (s t : State) : Prop where
  res : t.res = s.res
  olen : t.olen = s.olen
  err : t.err = s.err
  valid : t.valid = s.valid
  ecode : t.ecode = s.ecode
  errval : t.errval = s.errval
  errbnd : t.errbnd = s.errbnd
  obuf : t.obuf = s.obuf

/-- A buffer's written bytes are in canonical form and inside the buffer. -/
structure BufferOk (cap : Nat) (b : Buffer) : Prop where
  sorted : Memory.wf b.written
  inside : ∀ c ∈ b.written, c.1 < cap

/-- The invariant of a block: what the rules promise of every state (10_state.md R27 to R32, R34 to
R37, R41, R42, R47, 60_exceptions.md R190, R191, 70_reset_and_hazards.md R220). -/
structure Inv (s : State) : Prop where
  params : s.params.wellFormed = true
  ibuf : BufferOk s.params.bufCap s.ibuf
  obuf : BufferOk s.params.bufCap s.obuf
  /-- R32 -/
  olenInside : uint s.olen ≤ s.params.bufCap
  /-- R37: every byte the host can see of OBUF was written. -/
  outputStored : ∀ i, i < uint s.olen → (Memory.read s.obuf.written i).isSome = true
  /-- R30 -/
  errIffEcode : s.err = true ↔ s.ecode ≠ 0
  /-- R190: codes 9 to 15 are never produced. -/
  ecodeKnown : s.ecode.toNat ≤ 8
  /-- R191 -/
  failedOutputs : s.err = true → s.res = 0 ∧ s.olen = 0
  /-- R35 -/
  succeededContext : s.err = false → s.errval = 0 ∧ s.errbnd = 0
  /-- R30, R48 -/
  beforeFirst : s.valid = false → s.err = false ∧ s.res = 0 ∧ s.olen = 0
  /-- R31, R32: only INTTOSTRING gives bytes, and it gives no word. -/
  oneOutput : s.olen ≠ 0 → s.res = 0
  /-- R220 -/
  rstIdle : s.rst = true → s.inFlight = none
  /-- R41, R42: CMD keeps the word in flight, and the delay is within MAX_LATENCY. -/
  flight : ∀ c, s.inFlight = some c →
    c.snap.cmd = s.cmd ∧ c.remaining ≤ s.params.maxLatency ∧
      BufferOk s.params.bufCap c.snap.ibuf ∧ c.snap.ibuf.draw = s.ibuf.draw

end Sys2Proof.Machine
end

