-- ==== Sys2Proof/Certificates/Slice0/Obligations.lean ====
section
/-! DEFINITION. The statements about the WBC, from the numbered rules of spec/. -/

open Sys2Proof Sys2Proof.Machine

/-! ### Encoding -/

/-- R92, R98: the decoder accepts exactly the 17 listed words, each as the command listed for it. -/
def Obligations.DecoderFollowsTheOpcodeMap : Prop :=
  ∀ (c : Word) (i : Instr), decode c = .ok i ↔
    (c, i) ∈ ([(0x01, .nthbit), (0x02, .partofbyte),
      (0x03, .nthbyte 0), (0x13, .nthbyte 1), (0x23, .nthbyte 2), (0x33, .nthbyte 3),
      (0x04, .bytesfromto 0 false), (0x14, .bytesfromto 1 false), (0x24, .bytesfromto 2 false),
      (0x34, .bytesfromto 3 false), (0x44, .bytesfromto 0 true), (0x54, .bytesfromto 1 true),
      (0x64, .bytesfromto 2 true), (0x74, .bytesfromto 3 true),
      (0x05, .inttostring false), (0x85, .inttostring true), (0x06, .stringtoint)] : List (Word × Instr))

/-- R90 to R92: decoding the word of a command gives it back, and every accepted 64-bit word is the
word of the command it decodes to. -/
def Obligations.EncodeAndDecodeAgree : Prop :=
  (∀ i : Instr, decode (encode i) = .ok i) ∧
    ∀ (c : Word) (i : Instr), decode c = .ok i → encode i = c

/-- R92, R93: the legality formula and the decoder, written down separately, agree on every word. -/
def Obligations.LegalityFormulaMatchesDecoder : Prop :=
  ∀ c : Word, legal c = true ↔ ∃ i, decode c = .ok i

/-- R93: an illegal word raises IllegalRequest(CMD, 0) whatever the operands hold, and a legal word
runs the command it stands for. -/
def Obligations.LegalityIsCheckedFirst : Prop :=
  ∀ (s : State) (c : InFlight), s.rst = false → s.inFlight = some c → c.remaining = 0 →
    (¬ (c.snap.cmd.toNat / 256 = 0 ∧
        c.snap.cmd.toNat % 16 ∈ [1, 2, 3, 4, 5, 6] ∧
        (c.snap.cmd.toNat % 16 ∈ [1, 2, 5, 6] → c.snap.cmd.toNat / 16 % 4 = 0) ∧
        (c.snap.cmd.toNat % 16 ∈ [1, 2, 3, 5, 6] → c.snap.cmd.toNat / 64 % 2 = 0) ∧
        (c.snap.cmd.toNat % 16 ∈ [1, 2, 3, 4, 6] → c.snap.cmd.toNat / 128 % 2 = 0)) →
      step s = .next (errorReport s .illegalRequest c.snap.cmd 0)) ∧
    ((c.snap.cmd.toNat / 256 = 0 ∧
        c.snap.cmd.toNat % 16 ∈ [1, 2, 3, 4, 5, 6] ∧
        (c.snap.cmd.toNat % 16 ∈ [1, 2, 5, 6] → c.snap.cmd.toNat / 16 % 4 = 0) ∧
        (c.snap.cmd.toNat % 16 ∈ [1, 2, 3, 5, 6] → c.snap.cmd.toNat / 64 % 2 = 0) ∧
        (c.snap.cmd.toNat % 16 ∈ [1, 2, 3, 4, 6] → c.snap.cmd.toNat / 128 % 2 = 0)) →
      ∃ i, encode i = c.snap.cmd ∧ step s = exec i s)

/-- R98: the spellings and their words, and what the decoder makes of each word. -/
def Obligations.SpellingsHaveTheirWords : Prop :=
  allCommands.map (fun i => (spelling i, encode i, decodeTableWord 32 (encode i).toNat)) =
    [("NTHBIT", 0x00000001, some .nthbit), ("PARTOFBYTE", 0x00000002, some .partofbyte),
     ("NTHBYTE.B", 0x00000003, some (.nthbyte 0)), ("NTHBYTE.I", 0x00000013, some (.nthbyte 1)),
     ("NTHBYTE.T2", 0x00000023, some (.nthbyte 2)), ("NTHBYTE.T3", 0x00000033, some (.nthbyte 3)),
     ("BYTESFROMTO.B", 0x00000004, some (.bytesfromto 0 false)),
     ("BYTESFROMTO.I", 0x00000014, some (.bytesfromto 1 false)),
     ("BYTESFROMTO.T2", 0x00000024, some (.bytesfromto 2 false)),
     ("BYTESFROMTO.T3", 0x00000034, some (.bytesfromto 3 false)),
     ("BYTESFROMTO.B.F8", 0x00000044, some (.bytesfromto 0 true)),
     ("BYTESFROMTO.I.F8", 0x00000054, some (.bytesfromto 1 true)),
     ("BYTESFROMTO.T2.F8", 0x00000064, some (.bytesfromto 2 true)),
     ("BYTESFROMTO.T3.F8", 0x00000074, some (.bytesfromto 3 true)),
     ("INTTOSTRING", 0x00000005, some (.inttostring false)),
     ("INTTOSTRING.SZ", 0x00000085, some (.inttostring true)),
     ("STRINGTOINT", 0x00000006, some .stringtoint)]

/-! ### The step -/

/-- R42, R44: when the delay of the command in flight is over, the step is the command its word decodes
to. -/
def Obligations.StepRunsTheDecodedCommand : Prop :=
  ∀ (s : State) (c : InFlight) (i : Instr), s.rst = false → s.inFlight = some c → c.remaining = 0 →
    decode c.snap.cmd = .ok i → step s = exec i s

/-- R76 (model's choice of steps: log entry 2): with no completion due, the next event of the outside
takes effect, alone, and with none waiting a clock cycle passes. -/
def Obligations.StepTakesOneEventInOrder : Prop :=
  ∀ s : State, (s.rst = true ∨ s.inFlight = none ∨ ∃ c, s.inFlight = some c ∧ c.remaining ≠ 0) →
    (∀ e rest, s.events = e :: rest → step s = .next (applyEvent { s with events := rest } e)) ∧
    (s.events = [] → step s = .next (clockTick s))

/-- R42, R195: no step of the block faults or stops. -/
def Obligations.StepNeverStops : Prop := ∀ s : State, ∃ t, step s = .next t

/-! ### Bit-field extractor -/

/-- R120: NTHBIT. -/
def Obligations.NthbitReportsTheSelectedBit : Prop :=
  encode .nthbit = 0x00000001 ∧
  ∀ (s : State) (c : InFlight), s.inFlight = some c →
    (sint c.snap.opa < 0 ∨ 255 < sint c.snap.opa →
      FailsWith .nthbit s .invalidInput c.snap.opa 255) ∧
    (0 ≤ sint c.snap.opa → sint c.snap.opa ≤ 255 → sint c.snap.opb < 1 ∨ 8 < sint c.snap.opb →
      FailsWith .nthbit s .invalidBitIndex c.snap.opb 8) ∧
    (0 ≤ sint c.snap.opa → sint c.snap.opa ≤ 255 → 1 ≤ sint c.snap.opb → sint c.snap.opb ≤ 8 →
      GivesWord .nthbit s
        (BitVec.ofNat 64 ((sint c.snap.opa).toNat / 2 ^ (8 - (sint c.snap.opb).toNat) % 2)))

/-- R121: PARTOFBYTE. -/
def Obligations.PartofbyteReportsTheNibble : Prop :=
  encode .partofbyte = 0x00000002 ∧
  ∀ (s : State) (c : InFlight), s.inFlight = some c →
    (sint c.snap.opa < 0 ∨ 255 < sint c.snap.opa →
      FailsWith .partofbyte s .invalidInput c.snap.opa 255) ∧
    (0 ≤ sint c.snap.opa → sint c.snap.opa ≤ 255 → sint c.snap.opb ≠ 1 → sint c.snap.opb ≠ 2 →
      FailsWith .partofbyte s .unsupportedPart c.snap.opb 2) ∧
    (0 ≤ sint c.snap.opa → sint c.snap.opa ≤ 255 → sint c.snap.opb = 1 →
      GivesWord .partofbyte s (BitVec.ofNat 64 ((sint c.snap.opa).toNat / 16))) ∧
    (0 ≤ sint c.snap.opa → sint c.snap.opa ≤ 255 → sint c.snap.opb = 2 →
      GivesWord .partofbyte s (BitVec.ofNat 64 ((sint c.snap.opa).toNat % 16)))

/-- R122: the eight NTHBIT results rebuild the byte. -/
def Obligations.NthbitResultsRebuildTheByte : Prop :=
  ∀ (s : State) (S : Snapshot) (b : Nat), b ≤ 255 → S.opa = BitVec.ofNat 64 b →
    ∃ r : Nat → Nat,
      (∀ k, 1 ≤ k → k ≤ 8 → r k ≤ 1 ∧
        GivesWord .nthbit (issued s { S with opb := BitVec.ofNat 64 k }) (BitVec.ofNat 64 (r k))) ∧
      ∑ k ∈ Finset.Icc 1 8, r k * 2 ^ (8 - k) = b

/-- R123: the two PARTOFBYTE results rebuild the byte. -/
def Obligations.NibblesRebuildTheByte : Prop :=
  ∀ (s : State) (S : Snapshot) (b : Nat), b ≤ 255 → S.opa = BitVec.ofNat 64 b →
    ∃ h l : Nat, h ≤ 15 ∧ l ≤ 15 ∧
      GivesWord .partofbyte (issued s { S with opb := 1 }) (BitVec.ofNat 64 h) ∧
      GivesWord .partofbyte (issued s { S with opb := 2 }) (BitVec.ofNat 64 l) ∧ h * 16 + l = b

/-- R124: the nibbles are made of the bits. -/
def Obligations.NibblesAgreeWithBits : Prop :=
  ∀ (s : State) (S : Snapshot) (b : Nat), b ≤ 255 → S.opa = BitVec.ofNat 64 b →
    ∃ (r : Nat → Nat) (h l : Nat), h ≤ 15 ∧ l ≤ 15 ∧
      (∀ k, 1 ≤ k → k ≤ 8 → r k ≤ 1 ∧
        GivesWord .nthbit (issued s { S with opb := BitVec.ofNat 64 k }) (BitVec.ofNat 64 (r k))) ∧
      GivesWord .partofbyte (issued s { S with opb := 1 }) (BitVec.ofNat 64 h) ∧
      GivesWord .partofbyte (issued s { S with opb := 2 }) (BitVec.ofNat 64 l) ∧
      h = ∑ k ∈ Finset.Icc 1 4, r k * 2 ^ (4 - k) ∧ l = ∑ k ∈ Finset.Icc 5 8, r k * 2 ^ (8 - k)

/-! ### Frames -/

/-- R70: `w(n)` is the least width from 1 to 8 that holds n; a byte, zero included, has width 1. -/
def Obligations.WidthIsTheLeastThatHolds : Prop :=
  ∀ n : Nat, n < 2 ^ 64 →
    1 ≤ width n ∧ width n ≤ 8 ∧ n < 2 ^ (8 * width n) ∧ (n < 2 ^ 8 → width n = 1) ∧
      ∀ k, 1 ≤ k → k ≤ 8 → n < 2 ^ (8 * k) → width n ≤ k

/-- R71: the bytes of `Be(n)`, the first one most significant, with no leading zero byte but for
n = 0. -/
def Obligations.BeIsMinimalBigEndian : Prop :=
  ∀ n : Nat, n < 2 ^ 64 →
    (be n).length = width n ∧
      (∀ i, i < width n → ((be n).getD i 0).toNat = n / 2 ^ (8 * (width n - 1 - i)) % 256) ∧
      (n ≠ 0 → (be n).getD 0 0 ≠ 0) ∧ be 0 = [0]

/-- R72: the fold is the weighted sum of the bytes, is below 2^(8·len), and survives `lo64`. -/
def Obligations.FoldIsTheWeightedSum : Prop :=
  fold [] = 0 ∧ ∀ s : List Byte, s.length ≤ 8 →
    fold s = ∑ i ∈ Finset.range s.length, (s.getD i 0).toNat * 2 ^ (8 * (s.length - 1 - i)) ∧
      fold s ≤ 2 ^ (8 * s.length) - 1 ∧ uint (lo64 (fold s)) = fold s

/-- R73: `Fold` and `Be` undo each other. -/
def Obligations.FoldAndBeAreInverse : Prop :=
  (∀ n : Nat, n < 2 ^ 64 → fold (be n) = n) ∧
    ∀ s : List Byte, 1 ≤ s.length → s.length ≤ 8 → s.getD 0 0 ≠ 0 → be (fold s) = s

/-- R74: the frame tag is FT = CMD[5:4], and the frame view by frame tag. -/
def Obligations.FrameViewFollowsTheTag : Prop :=
  (∀ (c : Word) (ft : BitVec 2) (f8 : Bool),
    decode c = .ok (.nthbyte ft) ∨ decode c = .ok (.bytesfromto ft f8) → c.extractLsb' 4 2 = ft) ∧
  ∀ (cap : Nat) (ft : BitVec 2) (S : Snapshot),
    (ft = 0 → cap < uint S.ilen →
      frameView cap ft S =
        .error { kind := .illegalRequest, val := S.ilen, bnd := lo64 cap }) ∧
    (ft = 0 → uint S.ilen ≤ cap →
      ∃ F, frameView cap ft S = .ok F ∧ F.length = uint S.ilen ∧
        ∀ i, i < uint S.ilen → F.getD i 0 = ibufByte S.ibuf i) ∧
    (ft = 1 → sint S.opa < 0 →
      frameView cap ft S = .error { kind := .negativeFrame, val := S.opa, bnd := 0 }) ∧
    (ft = 1 → 0 ≤ sint S.opa →
      frameView cap ft S = .ok (be (sint S.opa).toNat) ∧
        1 ≤ (be (sint S.opa).toNat).length ∧ (be (sint S.opa).toNat).length ≤ 8 ∧
        ((be (sint S.opa).toNat).length = 8 → ((be (sint S.opa).toNat).getD 0 0).toNat ≤ 0x7F)) ∧
    (ft = 2 → frameView cap ft S = .error { kind := .invalidFrameType, val := 2, bnd := 1 }) ∧
    (ft = 3 → frameView cap ft S = .error { kind := .invalidFrameType, val := 3, bnd := 1 })

/-! ### Byte-range serializer -/

/-- R140: NTHBYTE, after the frame view of R74. -/
def Obligations.NthbyteFollowsItsRule : Prop :=
  (∀ ft : BitVec 2, uint (encode (.nthbyte ft)) = 0x3 + 16 * ft.toNat) ∧
  ∀ (s : State) (c : InFlight) (ft : BitVec 2), s.inFlight = some c →
    (∀ e, frameView s.params.bufCap ft c.snap = .error e →
      FailsWith (.nthbyte ft) s e.kind e.val e.bnd) ∧
    (∀ F, frameView s.params.bufCap ft c.snap = .ok F →
      (sint c.snap.opb < 0 ∨ (F.length : Int) ≤ sint c.snap.opb →
        FailsWith (.nthbyte ft) s .frameTooShort c.snap.opb (lo64 F.length)) ∧
      (0 ≤ sint c.snap.opb → sint c.snap.opb < F.length →
        GivesWord (.nthbyte ft) s (BitVec.ofNat 64 (F.getD (sint c.snap.opb).toNat 0).toNat)))

/-- R140 with R74: which byte NTHBYTE gives, for each frame tag, from the operands alone. -/
def Obligations.NthbyteSelectsOneByte : Prop :=
  ∀ (s : State) (c : InFlight), s.inFlight = some c →
    (uint c.snap.ilen ≤ s.params.bufCap → 0 ≤ sint c.snap.opb → sint c.snap.opb < uint c.snap.ilen →
      GivesWord (.nthbyte 0) s
        (BitVec.ofNat 64 (ibufByte c.snap.ibuf (sint c.snap.opb).toNat).toNat)) ∧
    (0 ≤ sint c.snap.opa → 0 ≤ sint c.snap.opb → sint c.snap.opb < width (uint c.snap.opa) →
      GivesWord (.nthbyte 1) s
        (BitVec.ofNat 64
          (uint c.snap.opa / 2 ^ (8 * (width (uint c.snap.opa) - 1 - uint c.snap.opb)) % 256))) ∧
    FailsWith (.nthbyte 2) s .invalidFrameType 2 1 ∧
    FailsWith (.nthbyte 3) s .invalidFrameType 3 1

/-- R141: BYTESFROMTO: the width first, then the frame view of R74, then the bounds. -/
def Obligations.BytesfromtoFollowsItsRule : Prop :=
  (∀ (ft : BitVec 2) (f8 : Bool),
    uint (encode (.bytesfromto ft f8)) = 0x4 + 16 * ft.toNat + 64 * f8.toNat) ∧
  ∀ (s : State) (c : InFlight) (ft : BitVec 2) (f8 : Bool) (maxW W : Int), s.inFlight = some c →
    maxW = (if f8 = true then 8 else 7) → W = sint c.snap.opc - sint c.snap.opb + 1 →
    (W < 1 ∨ maxW < W → FailsWith (.bytesfromto ft f8) s .unsupportedWidth (lo64 W) (lo64 maxW)) ∧
    (1 ≤ W → W ≤ maxW → ∀ e, frameView s.params.bufCap ft c.snap = .error e →
      FailsWith (.bytesfromto ft f8) s e.kind e.val e.bnd) ∧
    (1 ≤ W → W ≤ maxW → ∀ F, frameView s.params.bufCap ft c.snap = .ok F →
      (sint c.snap.opb < 0 →
        FailsWith (.bytesfromto ft f8) s .frameTooShort c.snap.opb (lo64 F.length)) ∧
      (0 ≤ sint c.snap.opb → (F.length : Int) ≤ sint c.snap.opc →
        FailsWith (.bytesfromto ft f8) s .frameTooShort c.snap.opc (lo64 F.length)) ∧
      (0 ≤ sint c.snap.opb → sint c.snap.opc < F.length →
        GivesWord (.bytesfromto ft f8) s
          (BitVec.ofNat 64
            (fold ((F.drop (sint c.snap.opb).toNat).take W.toNat)))))

/-- R141 with R72 and R74: which value BYTESFROMTO gives, for each frame tag, from the operands
alone. -/
def Obligations.BytesfromtoFoldsTheRange : Prop :=
  ∀ (s : State) (c : InFlight) (f8 : Bool) (a b : Nat), s.inFlight = some c →
    c.snap.opb = BitVec.ofNat 64 a → c.snap.opc = BitVec.ofNat 64 b → b < 2 ^ 63 → a ≤ b →
    b - a + 1 ≤ (if f8 = true then 8 else 7) →
    (uint c.snap.ilen ≤ s.params.bufCap → b < uint c.snap.ilen →
      GivesWord (.bytesfromto 0 f8) s
        (BitVec.ofNat 64
          (∑ j ∈ Finset.range (b - a + 1), (ibufByte c.snap.ibuf (a + j)).toNat * 2 ^ (8 * (b - a - j))))) ∧
    (0 ≤ sint c.snap.opa → b < width (uint c.snap.opa) →
      GivesWord (.bytesfromto 1 f8) s
        (BitVec.ofNat 64
          (uint c.snap.opa / 2 ^ (8 * (width (uint c.snap.opa) - 1 - b)) % 2 ^ (8 * (b - a + 1))))) ∧
    FailsWith (.bytesfromto 2 f8) s .invalidFrameType 2 1 ∧
    FailsWith (.bytesfromto 3 f8) s .invalidFrameType 3 1

/-- R142: BYTESFROMTO is the fold of the NTHBYTE results, for both frame forms. -/
def Obligations.RangeIsTheFoldOfItsBytes : Prop :=
  ∀ (s : State) (S : Snapshot) (ft : BitVec 2) (f8 : Bool) (F : List Byte) (a b : Nat),
    s.params.wellFormed = true → frameView s.params.bufCap ft S = .ok F → a ≤ b → b < F.length →
    (b - a + 1 ≤ 7 ∨ (b - a + 1 = 8 ∧ f8 = true)) →
    ∃ r : Nat → Byte,
      (∀ j, a ≤ j → j ≤ b →
        GivesWord (.nthbyte ft) (issued s { S with opb := BitVec.ofNat 64 j })
          (BitVec.ofNat 64 (r j).toNat)) ∧
      GivesWord (.bytesfromto ft f8)
        (issued s { S with opb := BitVec.ofNat 64 a, opc := BitVec.ofNat 64 b })
        (lo64 (fold ((List.range (b - a + 1)).map fun j => r (a + j))))

/-- R143: the integer form of n and the byte-sequence form of Be(n) have identical outcomes. -/
def Obligations.BothFormsGiveTheSameOutcome : Prop :=
  ∀ (s : State) (S T : Snapshot) (n : Nat) (f8 : Bool), s.params.wellFormed = true → n < 2 ^ 63 →
    S.opa = BitVec.ofNat 64 n → T.ilen = BitVec.ofNat 64 (width n) →
    (∀ i, i < width n → ibufByte T.ibuf i = (be n).getD i 0) → T.opb = S.opb → T.opc = S.opc →
    (∃ t u, exec (.nthbyte 1) (issued s S) = .next t ∧ exec (.nthbyte 0) (issued s T) = .next u ∧
      SameReport t u) ∧
    (∃ t u, exec (.bytesfromto 1 f8) (issued s S) = .next t ∧
      exec (.bytesfromto 0 f8) (issued s T) = .next u ∧ SameReport t u)

/-- R144: width 8 needs force8Bytes, and width 9 always fails, whatever the frame. -/
def Obligations.WidthsEightAndNineAtTheBoundary : Prop :=
  ∀ (s : State) (S : Snapshot) (ft : BitVec 2),
    (sint S.opb + 7 ≤ 2 ^ 63 - 1 → S.opc = lo64 (sint S.opb + 7) →
      FailsWith (.bytesfromto ft false) (issued s S) .unsupportedWidth 8 7) ∧
    (sint S.opb + 8 ≤ 2 ^ 63 - 1 → S.opc = lo64 (sint S.opb + 8) →
      FailsWith (.bytesfromto ft true) (issued s S) .unsupportedWidth 9 8 ∧
      FailsWith (.bytesfromto ft false) (issued s S) .unsupportedWidth 9 7)

/-- R145: integer-form results have bit 63 clear, and byte 0 of an 8-byte integer frame is at most
0x7F. -/
def Obligations.IntegerFormResultsStayPositive : Prop :=
  ∀ (s : State) (S : Snapshot) (f8 : Bool),
    (∃ t, exec (.bytesfromto 1 f8) (issued s S) = .next t ∧ t.res.getLsbD 63 = false) ∧
    (0 ≤ sint S.opa → width (uint S.opa) = 8 → S.opb = 0 →
      ∃ r : Nat, r ≤ 0x7F ∧ GivesWord (.nthbyte 1) (issued s S) (BitVec.ofNat 64 r))

/-- R146: a range of one byte has the outcome of NTHBYTE at that index. -/
def Obligations.SingleByteRangeIsNthbyte : Prop :=
  ∀ (s : State) (S : Snapshot) (ft : BitVec 2) (f8 : Bool), S.opc = S.opb →
    ∃ t u, exec (.bytesfromto ft f8) (issued s S) = .next t ∧
      exec (.nthbyte ft) (issued s S) = .next u ∧ SameReport t u

/-! ### Integer converter -/

/-- R170: INTTOSTRING. -/
def Obligations.InttostringGivesTheFittedBytes : Prop :=
  encode (.inttostring false) = 0x05 ∧ encode (.inttostring true) = 0x85 ∧
  ∀ (s : State) (c : InFlight), s.inFlight = some c →
    GivesBytes (.inttostring false) s (be (uint c.snap.opa)) ∧
    (sint c.snap.opb < 0 ∨ (s.params.bufCap : Int) < sint c.snap.opb →
      FailsWith (.inttostring true) s .unsupportedWidth c.snap.opb (lo64 s.params.bufCap)) ∧
    (0 ≤ sint c.snap.opb → sint c.snap.opb ≤ s.params.bufCap →
      (sint c.snap.opb ≤ width (uint c.snap.opa) →
        GivesBytes (.inttostring true) s
          ((be (uint c.snap.opa)).drop (width (uint c.snap.opa) - uint c.snap.opb))) ∧
      ((width (uint c.snap.opa) : Int) < sint c.snap.opb →
        GivesBytes (.inttostring true) s
          (List.replicate (uint c.snap.opb - width (uint c.snap.opa)) 0 ++ be (uint c.snap.opa))))

/-- R171: STRINGTOINT. -/
def Obligations.StringtointFoldsTheInput : Prop :=
  encode .stringtoint = 0x06 ∧
  ∀ (s : State) (c : InFlight), s.inFlight = some c →
    (s.params.bufCap < uint c.snap.ilen →
      FailsWith .stringtoint s .illegalRequest c.snap.ilen (lo64 s.params.bufCap)) ∧
    (uint c.snap.ilen ≤ s.params.bufCap → 8 < uint c.snap.ilen →
      FailsWith .stringtoint s .unsupportedWidth c.snap.ilen 8) ∧
    (uint c.snap.ilen ≤ s.params.bufCap → uint c.snap.ilen ≤ 8 →
      GivesWord .stringtoint s
        (BitVec.ofNat 64
          (∑ j ∈ Finset.range (uint c.snap.ilen),
            (ibufByte c.snap.ibuf j).toNat * 2 ^ (8 * (uint c.snap.ilen - 1 - j)))))

/-- R172: an integer through INTTOSTRING, the host's copy of OBUF into IBUF, and STRINGTOINT. -/
def Obligations.IntegerRoundTrip : Prop :=
  ∀ (s : State) (S : Snapshot), s.params.wellFormed = true →
    ∃ t, exec (.inttostring false) (issued s S) = .next t ∧ t.err = false ∧
      ∀ (u : State) (T : Snapshot), u.params = s.params → T.ilen = t.olen →
        (∀ i, i < uint t.olen → ibufByte T.ibuf i = t.obufRead i) →
        GivesWord .stringtoint (issued u T) S.opa

/-- R173: a sequence through STRINGTOINT and INTTOSTRING.SZ with its own length. -/
def Obligations.SequenceRoundTrip : Prop :=
  ∀ (s : State) (S : Snapshot), s.params.wellFormed = true → uint S.ilen ≤ 8 →
    ∃ r, GivesWord .stringtoint (issued s S) r ∧
      ∀ (u : State) (T : Snapshot), u.params = s.params → T.opa = r → T.opb = S.ilen →
        ∃ t, exec (.inttostring true) (issued u T) = .next t ∧ t.err = false ∧ t.olen = S.ilen ∧
          ∀ i, i < uint S.ilen → t.obufRead i = ibufByte S.ibuf i

/-- R174: INTTOSTRING.SZ with size z gives the last z bytes of the integer with leading zeros kept. -/
def Obligations.FittedWidthKeepsTheLowBytes : Prop :=
  ∀ (s : State) (S : Snapshot) (z : Nat), s.params.wellFormed = true → z ≤ s.params.bufCap →
    S.opb = BitVec.ofNat 64 z →
    ∃ out, GivesBytes (.inttostring true) (issued s S) out ∧ out.length = z ∧
      (∀ i, i < z → (out.getD (z - 1 - i) 0).toNat = uint S.opa / 2 ^ (8 * i) % 256) ∧
      (z ≤ 8 → fold out = uint S.opa % 2 ^ (8 * z))

/-- R175: INTTOSTRING without SZ gives w(n) bytes, the first not 0x00 unless n = 0. -/
def Obligations.NaturalOutputHasNoLeadingZero : Prop :=
  ∀ (s : State) (S : Snapshot),
    ∃ out, GivesBytes (.inttostring false) (issued s S) out ∧ out.length = width (uint S.opa) ∧
      1 ≤ out.length ∧ out.length ≤ 8 ∧ (out.getD 0 0 = 0 → S.opa = 0)

/-! ### Issue, completion and what a command touches -/

/-- R40: a CMD write to an idle block issues: CMD, the snapshot and BUSY change, and nothing else the
spec names. R42, R230: the delay is within MAX_LATENCY. That the delay is drawn at issue, and that the
counter of draws counts it, is the model's choice (log entry 3). -/
def Obligations.IssueLatchesEveryInput : Prop :=
  ∀ (s : State) (v : Word), s.rst = false → s.busy = false →
    ∃ c, memWrite s 0x000 8 v = { s with cmd := v, inFlight := some c, draws := s.draws + 1 } ∧
      (memWrite s 0x000 8 v).busy = true ∧
      c.snap.cmd = v ∧ c.snap.opa = s.opa ∧ c.snap.opb = s.opb ∧ c.snap.opc = s.opc ∧
      c.snap.ilen = s.ilen ∧ (∀ i, ibufByte c.snap.ibuf i = ibufByte s.ibuf i) ∧
      c.remaining ≤ s.params.maxLatency

/-- R41: a CMD write while a command is in flight changes nothing. -/
def Obligations.IssueWhileBusyIsIgnored : Prop :=
  ∀ (s : State) (v : Word), s.busy = true → memWrite s 0x000 8 v = s

/-- R46: inputs written while a command is in flight reach the registers and not its snapshot. -/
def Obligations.InputsWrittenWhileBusyMissTheSnapshot : Prop :=
  ∀ (s : State) (c : InFlight) (v : Word), s.rst = false → s.inFlight = some c →
    (∀ off n, (memWrite s off n v).inFlight = some c) ∧
    (memWrite s 0x008 8 v).opa = v ∧ (memWrite s 0x010 8 v).opb = v ∧
    (memWrite s 0x018 8 v).opc = v ∧ (memWrite s 0x020 8 v).ilen = v ∧
    (∀ i, i < s.params.bufCap → s.params.bufCap ≤ 4096 →
      ibufByte (memWrite s (0x1000 + i) 1 v).ibuf i = v.setWidth 8)

/-- R42, R46, R231 (the count of steps is the model's: log entry 2): while RST stays low, the command in flight completes within as many steps as there
are events waiting and cycles left, and one more, and reports what its snapshot alone gives, whatever
the host writes meanwhile. -/
def Obligations.EveryIssuedCommandCompletes : Prop :=
  ∀ (s : State) (c : InFlight), s.rst = false → s.inFlight = some c →
    (∀ e ∈ s.events, e ≠ .rst true) →
    ∃ (n : Nat) (t u : State), n ≤ s.events.length + c.remaining + 1 ∧
      Host.Core.run Sys2Proof.core n s = .next t ∧ t.inFlight = none ∧ t.valid = true ∧
      t.cmd = s.cmd ∧ step (issued s c.snap) = .next u ∧ SameReport t u

/-- R45: a completion's report depends on the snapshot alone, illegal words included. -/
def Obligations.ReportDependsOnSnapshotAlone : Prop :=
  ∀ (s u : State) (S : Snapshot), s.rst = false → u.rst = false → s.params = u.params →
    ∃ t v, step (issued s S) = .next t ∧ step (issued u S) = .next v ∧ SameReport t v

/-- R95: a register or byte a command does not read may hold anything. -/
def Obligations.UnreadOperandsDoNotMatter : Prop :=
  ∀ (s : State) (S T : Snapshot) (i : Instr), ReadsSame i S T →
    ∃ t u, exec i (issued s S) = .next t ∧ exec i (issued s T) = .next u ∧ SameReport t u

/-- R43, R191, R194: the frame of the five commands that give a word, NTHBIT, PARTOFBYTE, NTHBYTE,
BYTESFROMTO and STRINGTOINT: every input, every byte of IBUF and every stored byte of OBUF is
unchanged. -/
def Obligations.WordCommandsStoreNothing : Prop :=
  ∀ (s : State) (c : InFlight) (i : Instr), s.inFlight = some c →
    (i = .nthbit ∨ i = .partofbyte ∨ (∃ ft, i = .nthbyte ft) ∨ (∃ ft f8, i = .bytesfromto ft f8) ∨
      i = .stringtoint) →
    ∃ t, exec i s = .next t ∧ KeepsInputs s t ∧ t.olen = 0 ∧ t.obuf.draw = s.obuf.draw ∧
      ∀ j, obufByte t.obuf j = obufByte s.obuf j

/-- R43, R191, R194: the frame of INTTOSTRING: every input and every byte of IBUF is unchanged, and so
is every stored byte of OBUF but the first OLEN. -/
def Obligations.InttostringStoresOnlyItsOutput : Prop :=
  ∀ (s : State) (c : InFlight) (sz : Bool), s.inFlight = some c →
    ∃ t, exec (.inttostring sz) s = .next t ∧ KeepsInputs s t ∧ t.res = 0 ∧
      t.obuf.draw = s.obuf.draw ∧
      ∀ j, uint t.olen ≤ j → obufByte t.obuf j = obufByte s.obuf j

/-- R30, R40, R226: no access, clock cycle or issue changes an output. That asserting RST, and a step
while it is asserted, changes none either is the model's choice (log entry 9); the spec gives their values
once RST is released. -/
def Obligations.OutputsChangeOnlyAtCompletionOrReset : Prop :=
  ∀ s : State, completionDue s = none → (∀ rest, s.events ≠ .rst false :: rest) →
    ∃ t, step s = .next t ∧ KeepsOutputs s t

/-! ### The register window -/

/-- R22, R27, R28, R31, R32, R35, R38: each register as the host reads it, the bits of STATUS, and that a
write to STATUS, RES, OLEN, ERRVAL or ERRBND is ignored. -/
def Obligations.StatusHasItsFields : Prop :=
  ∀ s : State, s.rst = false →
    (∀ i, (memRead s 0x028 8).getLsbD i =
      if i = 0 then s.busy else if i = 1 then s.err else if i = 2 then s.valid
      else if 8 ≤ i ∧ i < 12 then s.ecode.getLsbD (i - 8) else false) ∧
    memRead s 0x000 8 = s.cmd ∧ memRead s 0x008 8 = s.opa ∧ memRead s 0x010 8 = s.opb ∧
    memRead s 0x018 8 = s.opc ∧ memRead s 0x020 8 = s.ilen ∧ memRead s 0x030 8 = s.res ∧
    memRead s 0x038 8 = s.olen ∧ memRead s 0x040 8 = s.errval ∧ memRead s 0x048 8 = s.errbnd ∧
    ∀ v, memWrite s 0x028 8 v = s ∧ memWrite s 0x030 8 v = s ∧ memWrite s 0x038 8 v = s ∧
      memWrite s 0x040 8 v = s ∧ memWrite s 0x048 8 v = s

/-- R23 to R26: OPA, OPB, OPC and ILEN read back what was written, and such a write changes no other
register. -/
def Obligations.OperandRegistersReadBack : Prop :=
  ∀ (s : State) (r : RegName) (v : Word), s.rst = false →
    (r = .opa ∨ r = .opb ∨ r = .opc ∨ r = .ilen) →
    memRead (memWrite s r.offset 8 v) r.offset 8 = v ∧
      ∀ q, q ≠ r → memRead (memWrite s r.offset 8 v) q.offset 8 = memRead s q.offset 8

/-- R27: CMD reads the last accepted write. -/
def Obligations.CmdReadsTheLastAcceptedWrite : Prop :=
  ∀ (s : State) (v : Word), s.rst = false →
    (s.busy = false → memRead (memWrite s 0x000 8 v) 0x000 8 = v) ∧
    (s.busy = true → memRead (memWrite s 0x000 8 v) 0x000 8 = memRead s 0x000 8)

/-- R33, R34: ID and CAP are constants that writes and reset leave alone. -/
def Obligations.IdAndCapAreConstant : Prop :=
  ∀ s : State, s.rst = false →
    memRead s 0x050 8 = 0x5742430000000001 ∧ memRead (resetRegisters s) 0x050 8 = 0x5742430000000001 ∧
    (s.params.wellFormed = true →
      uint (memRead s 0x058 8) = s.params.bufCap ∧
      uint (memRead (resetRegisters s) 0x058 8) = s.params.bufCap) ∧
    (memRead s 0x058 8).extractLsb' 16 48 = 0 ∧
    ∀ v, memWrite s 0x050 8 v = s ∧ memWrite s 0x058 8 v = s

/-- R36: a byte of IBUF reads back what was written, and the write changes no other byte of IBUF, no
byte of OBUF and no register. -/
def Obligations.IbufBytesReadBack : Prop :=
  ∀ (s : State) (i : Nat) (v : Word), s.rst = false → s.params.wellFormed = true →
    i < s.params.bufCap →
    memRead (memWrite s (0x1000 + i) 1 v) (0x1000 + i) 1 = BitVec.ofNat 64 (uint v % 256) ∧
    (∀ j, j < s.params.bufCap → j ≠ i →
      memRead (memWrite s (0x1000 + i) 1 v) (0x1000 + j) 1 = memRead s (0x1000 + j) 1) ∧
    (∀ j, j < s.params.bufCap →
      memRead (memWrite s (0x1000 + i) 1 v) (0x2000 + j) 1 = memRead s (0x2000 + j) 1) ∧
    ∀ q : RegName, memRead (memWrite s (0x1000 + i) 1 v) q.offset 8 = memRead s q.offset 8

/-- R37: after INTTOSTRING the host reads the output bytes in OBUF, and 0x00 from OLEN on; a write to
OBUF is ignored. -/
def Obligations.ObufShowsTheLastOutput : Prop :=
  ∀ (s : State) (S : Snapshot) (sz : Bool) (t : State) (out : List Byte), s.rst = false →
    s.params.wellFormed = true → exec (.inttostring sz) (issued s S) = .next t →
    inttostringResult s.params.bufCap sz S = okBytes out →
    memRead t 0x038 8 = BitVec.ofNat 64 out.length ∧
    (∀ i, i < s.params.bufCap →
      memRead t (0x2000 + i) 1 = BitVec.ofNat 64 (out.getD i 0).toNat) ∧
    ∀ i v, i < s.params.bufCap → memWrite t (0x2000 + i) 1 v = t

/-- R63: an access of an unsupported size or alignment reads 0 and writes nothing. -/
def Obligations.UnsupportedAccessesDoNothing : Prop :=
  ∀ (s : State) (off n : Nat) (v : Word),
    (off < 0x1000 ∧ (n ≠ 8 ∨ off % 8 ≠ 0) ∨ 0x1000 ≤ off ∧ off < 0x3000 ∧ n ≠ 1) →
    memRead s off n = 0 ∧ memWrite s off n v = s

/-- R64: a reserved offset reads 0, and a write to one is ignored. -/
def Obligations.ReservedOffsetsReadZero : Prop :=
  ∀ (s : State) (off n : Nat) (v : Word),
    (0x060 ≤ off ∧ off < 0x1000 ∨ 0x1000 + s.params.bufCap ≤ off ∧ off < 0x2000 ∨
      0x2000 + s.params.bufCap ≤ off ∧ off < 0x3000) →
    memRead s off n = 0 ∧ memWrite s off n v = s

/-- R60, R61, R65: a bus access at WBC_BASE + off is the access at window offset off. A read changes
nothing but the answers, in front of which it puts the value read; a write does what `memWrite` does and
is acknowledged; and no read changes what another one gives. That an access outside the window does
nothing, and for which accesses the bus error is given, are the model's (log entries 11 and 10). -/
def Obligations.ReadsHaveNoSideEffect : Prop :=
  ∀ s : State,
    (∀ off n, off < 0x3000 →
      ∃ e, e = (s.params.busErrOnUnsupported &&
          decide (off < 0x1000 ∧ (n ≠ 8 ∨ off % 8 ≠ 0) ∨ 0x1000 ≤ off ∧ n ≠ 1)) ∧
        applyEvent s (.read (s.params.wbcBase + off) n) =
          { s with replies := .readData (memRead s off n) e :: s.replies } ∧
        ∀ v, applyEvent s (.write (s.params.wbcBase + off) n v) =
          { memWrite s off n v with replies := .writeAck e :: s.replies }) ∧
    (∀ a n v, a < s.params.wbcBase ∨ s.params.wbcBase + 0x3000 ≤ a →
      applyEvent s (.read a n) = s ∧ applyEvent s (.write a n v) = s) ∧
    ∀ a n off m, memRead (applyEvent s (.read a n)) off m = memRead s off m

/-! ### Reset -/

/-- R220: while RST is asserted reads give 0, writes do nothing and no command completes; when it is
released every register has its reset value. -/
def Obligations.ResetInputHoldsTheBlock : Prop :=
  ∀ s : State, s.rst = true →
    (∀ off n, memRead s off n = 0) ∧ (∀ off n v, memWrite s off n v = s) ∧
    step s = .next (nextEvent s) ∧ HasResetValues (driveRst s false)

/-- R48: the values after reset, from any state and at `State.reset`: every register, ID and CAP; and
what R50 says of that moment, that every host read of OBUF is 0x00. -/
def Obligations.ResetLeavesItsValues : Prop :=
  (∀ s : State, s.rst = true → HasResetValues (driveRst s false)) ∧
  (∀ p : Params, HasResetValues (State.resetWith p)) ∧ HasResetValues State.reset ∧
  ∀ t : State, HasResetValues t →
    (∀ off n, 0x2000 ≤ off → memRead t off n = 0) ∧ memRead t 0x050 8 = 0x5742430000000001 ∧
    (t.params.wellFormed = true → uint (memRead t 0x058 8) = t.params.bufCap)

/-- R222: asserting RST abandons the command in flight with no output written for it. That the outputs
are as before while RST is asserted is the model's choice (log entry 9). -/
def Obligations.ResetAbandonsTheCommand : Prop :=
  ∀ (s : State) (c : InFlight), s.inFlight = some c →
    (driveRst s true).inFlight = none ∧ KeepsOutputs s (driveRst s true) ∧
    completionDue (driveRst s true) = none ∧ HasResetValues (driveRst (driveRst s true) false)

/-- R223: after a reset, whatever the host reads and writes and however many clock cycles pass without a
write to CMD, the block is idle, and the first CMD write then issues a command on what the operand
registers and IBUF hold at that moment. -/
def Obligations.FirstWriteAfterResetIssues : Prop :=
  ∀ (r : State) (es : List Event) (v : Word), HasResetValues r →
    (∀ e ∈ es, e ≠ .rst true ∧ ∀ w, e ≠ .write r.params.wbcBase 8 w) →
    ∃ (t u : State) (c : InFlight),
      Host.Core.run Sys2Proof.core es.length
        { r with events := es ++ [.write r.params.wbcBase 8 v] } = .next t ∧
      t.busy = false ∧ step t = .next u ∧ u.busy = true ∧ u.cmd = v ∧ u.inFlight = some c ∧
      c.snap.cmd = v ∧ c.snap.opa = t.opa ∧ c.snap.opb = t.opb ∧ c.snap.opc = t.opc ∧
      c.snap.ilen = t.ilen ∧ ∀ i, ibufByte c.snap.ibuf i = ibufByte t.ibuf i

/-! ### Invariants and layers -/

/-- R190: the error codes. -/
def Obligations.ErrorCodesAreTheTable : Prop :=
  [ErrorKind.invalidInput, .invalidBitIndex, .unsupportedPart, .frameTooShort, .invalidFrameType,
    .negativeFrame, .unsupportedWidth, .illegalRequest].map errorCode = [1, 2, 3, 4, 5, 6, 7, 8]

/-- The invariant of a block is kept by every step, and so are the parameters. -/
def Obligations.InvariantIsKept : Prop :=
  ∀ s t : State, Inv s → step s = .next t → Inv t ∧ t.params = s.params

/-- The invariant holds after reset, for every choice of the parameters the spec allows. -/
def Obligations.InvariantHoldsAtReset : Prop :=
  (∀ p : Params, p.wellFormed = true → Inv (State.resetWith p)) ∧ Inv State.reset

/-- R203: a step of one block of a platform leaves every other block as it is. -/
def Obligations.BlocksShareNothing : Prop :=
  ∀ (p : Platform) (k : Nat), ∃ q, p.stepBlock k = .next q ∧ q.blocks.length = p.blocks.length ∧
    ∀ j, j ≠ k → q.blocks[j]? = p.blocks[j]?

/-- R99: `WAIT` reads STATUS and stays while BUSY is 1; it changes the block in nothing but its
answers. -/
def Obligations.WaitStaysWhileBusy : Prop :=
  ∀ sys : System, sys.block.rst = false → sys.host.program[sys.host.pos]? = some .wait →
    (sys.block.busy = true → sys.hostTurn.host = sys.host) ∧
    (sys.block.busy = false → sys.hostTurn.host = { sys.host with pos := sys.host.pos + 1 }) ∧
    ∃ rs, sys.hostTurn.block = { sys.block with replies := rs }
end

