-- ==== Sys2Proof/Laws/Frames.lean ====
section
/-! SUPPORT. The facts about `width`, `be` and `fold` that the frame laws rest on (20_memory.md R70 to
R73). -/

namespace Sys2Proof.Machine

theorem width_pos (n : Nat) : 1 ≤ width n := by unfold width; split_ifs <;> omega

theorem width_le (n : Nat) : width n ≤ 8 := by unfold width; split_ifs <;> omega

@[simp] theorem be_length (n : Nat) : (be n).length = width n := by simp [be]

/-- Byte `i` of `Be(n)`. -/
theorem be_getD (n i : Nat) (h : i < width n) :
    (be n).getD i 0 = BitVec.ofNat 8 (n >>> (8 * (width n - 1 - i))) := by
  simp [be, List.getD_eq_getElem?_getD, h]

theorem foldl_bytes (s : List Byte) (acc : Nat) :
    s.foldl (fun acc b => acc * 256 + b.toNat) acc = acc * 256 ^ s.length + fold s := by
  induction s generalizing acc with
  | nil => simp [fold]
  | cons b s ih =>
    simp only [fold, List.foldl_cons, List.length_cons]
    rw [ih, ih (0 * 256 + b.toNat)]
    ring

@[simp] theorem fold_nil : fold [] = 0 := rfl

@[simp] theorem fold_cons (b : Byte) (s : List Byte) :
    fold (b :: s) = b.toNat * 256 ^ s.length + fold s := by
  rw [fold, List.foldl_cons, foldl_bytes]; simp

theorem fold_append (s t : List Byte) : fold (s ++ t) = fold s * 256 ^ t.length + fold t := by
  rw [fold, List.foldl_append, foldl_bytes]; rfl

theorem fold_lt (s : List Byte) : fold s < 256 ^ s.length := by
  induction s with
  | nil => simp
  | cons b s ih =>
    rw [fold_cons, List.length_cons, pow_succ]
    have hb : b.toNat < 256 := b.isLt
    calc b.toNat * 256 ^ s.length + fold s < (b.toNat + 1) * 256 ^ s.length := by rw [add_mul]; omega
      _ ≤ 256 * 256 ^ s.length := Nat.mul_le_mul_right _ hb
      _ = 256 ^ s.length * 256 := Nat.mul_comm _ _

@[simp] theorem fold_zeros (k : Nat) : fold (List.replicate k 0) = 0 := by
  induction k with
  | zero => rfl
  | succ k ih => rw [List.replicate_succ, fold_cons, ih]; simp

/-- A sequence is determined by its length and its fold. -/
theorem fold_injective (s t : List Byte) (hl : s.length = t.length) (h : fold s = fold t) : s = t := by
  induction s generalizing t with
  | nil => exact (List.length_eq_zero_iff.1 hl.symm).symm
  | cons a s ih =>
    cases t with
    | nil => simp at hl
    | cons b t =>
      simp only [List.length_cons, Nat.add_right_cancel_iff] at hl
      rw [fold_cons, fold_cons, hl] at h
      have hs := fold_lt s
      have ht := fold_lt t
      rw [hl] at hs
      have hab : a.toNat = b.toNat := by
        have hp : 0 < 256 ^ t.length := Nat.pow_pos (by omega)
        have ha := congrArg (· / 256 ^ t.length) h
        simp only [Nat.add_comm (_ * _), Nat.add_mul_div_right _ _ hp, Nat.div_eq_of_lt hs,
          Nat.div_eq_of_lt ht, Nat.zero_add] at ha
        exact ha
      rw [hab] at h
      rw [BitVec.eq_of_toNat_eq hab, ih t hl (by omega)]

end Sys2Proof.Machine
end

