-- ==== Sys2Proof/Laws/State.lean ====
section
/-! SUPPORT. What each named update of the state does to each field: one lemma a field, so that no
proof unfolds a record update. -/

namespace Sys2Proof.Machine

@[simp] theorem issueAfter_params (s : State) (v : Word) (d : Nat) :
    (issueAfter s v d).params = s.params := rfl
@[simp] theorem issueAfter_rst (s : State) (v : Word) (d : Nat) : (issueAfter s v d).rst = s.rst := rfl
@[simp] theorem issueAfter_cmd (s : State) (v : Word) (d : Nat) : (issueAfter s v d).cmd = v := rfl
@[simp] theorem issueAfter_opa (s : State) (v : Word) (d : Nat) : (issueAfter s v d).opa = s.opa := rfl
@[simp] theorem issueAfter_opb (s : State) (v : Word) (d : Nat) : (issueAfter s v d).opb = s.opb := rfl
@[simp] theorem issueAfter_opc (s : State) (v : Word) (d : Nat) : (issueAfter s v d).opc = s.opc := rfl
@[simp] theorem issueAfter_ilen (s : State) (v : Word) (d : Nat) :
    (issueAfter s v d).ilen = s.ilen := rfl
@[simp] theorem issueAfter_err (s : State) (v : Word) (d : Nat) : (issueAfter s v d).err = s.err := rfl
@[simp] theorem issueAfter_valid (s : State) (v : Word) (d : Nat) :
    (issueAfter s v d).valid = s.valid := rfl
@[simp] theorem issueAfter_ecode (s : State) (v : Word) (d : Nat) :
    (issueAfter s v d).ecode = s.ecode := rfl
@[simp] theorem issueAfter_res (s : State) (v : Word) (d : Nat) : (issueAfter s v d).res = s.res := rfl
@[simp] theorem issueAfter_olen (s : State) (v : Word) (d : Nat) :
    (issueAfter s v d).olen = s.olen := rfl
@[simp] theorem issueAfter_errval (s : State) (v : Word) (d : Nat) :
    (issueAfter s v d).errval = s.errval := rfl
@[simp] theorem issueAfter_errbnd (s : State) (v : Word) (d : Nat) :
    (issueAfter s v d).errbnd = s.errbnd := rfl
@[simp] theorem issueAfter_ibuf (s : State) (v : Word) (d : Nat) :
    (issueAfter s v d).ibuf = s.ibuf := rfl
@[simp] theorem issueAfter_obuf (s : State) (v : Word) (d : Nat) :
    (issueAfter s v d).obuf = s.obuf := rfl
@[simp] theorem issueAfter_inFlight (s : State) (v : Word) (d : Nat) :
    (issueAfter s v d).inFlight = some { snap := takeSnapshot s v, remaining := d } := rfl
@[simp] theorem issueAfter_events (s : State) (v : Word) (d : Nat) :
    (issueAfter s v d).events = s.events := rfl
@[simp] theorem issueAfter_replies (s : State) (v : Word) (d : Nat) :
    (issueAfter s v d).replies = s.replies := rfl
@[simp] theorem issueAfter_draws (s : State) (v : Word) (d : Nat) :
    (issueAfter s v d).draws = s.draws := rfl

@[simp] theorem issue_params (s : State) (v : Word) : (issue s v).params = s.params := rfl
@[simp] theorem issue_rst (s : State) (v : Word) : (issue s v).rst = s.rst := rfl
@[simp] theorem issue_cmd (s : State) (v : Word) : (issue s v).cmd = v := rfl
@[simp] theorem issue_opa (s : State) (v : Word) : (issue s v).opa = s.opa := rfl
@[simp] theorem issue_opb (s : State) (v : Word) : (issue s v).opb = s.opb := rfl
@[simp] theorem issue_opc (s : State) (v : Word) : (issue s v).opc = s.opc := rfl
@[simp] theorem issue_ilen (s : State) (v : Word) : (issue s v).ilen = s.ilen := rfl
@[simp] theorem issue_err (s : State) (v : Word) : (issue s v).err = s.err := rfl
@[simp] theorem issue_valid (s : State) (v : Word) : (issue s v).valid = s.valid := rfl
@[simp] theorem issue_ecode (s : State) (v : Word) : (issue s v).ecode = s.ecode := rfl
@[simp] theorem issue_res (s : State) (v : Word) : (issue s v).res = s.res := rfl
@[simp] theorem issue_olen (s : State) (v : Word) : (issue s v).olen = s.olen := rfl
@[simp] theorem issue_errval (s : State) (v : Word) : (issue s v).errval = s.errval := rfl
@[simp] theorem issue_errbnd (s : State) (v : Word) : (issue s v).errbnd = s.errbnd := rfl
@[simp] theorem issue_ibuf (s : State) (v : Word) : (issue s v).ibuf = s.ibuf := rfl
@[simp] theorem issue_obuf (s : State) (v : Word) : (issue s v).obuf = s.obuf := rfl
@[simp] theorem issue_inFlight (s : State) (v : Word) :
    (issue s v).inFlight = some { snap := takeSnapshot s v, remaining := latency s.params s.draws } := rfl
@[simp] theorem issue_events (s : State) (v : Word) : (issue s v).events = s.events := rfl
@[simp] theorem issue_replies (s : State) (v : Word) : (issue s v).replies = s.replies := rfl
@[simp] theorem issue_draws (s : State) (v : Word) : (issue s v).draws = s.draws + 1 := rfl

@[simp] theorem completeOk_params (s : State) (o : Output) : (completeOk s o).params = s.params := rfl
@[simp] theorem completeOk_rst (s : State) (o : Output) : (completeOk s o).rst = s.rst := rfl
@[simp] theorem completeOk_cmd (s : State) (o : Output) : (completeOk s o).cmd = s.cmd := rfl
@[simp] theorem completeOk_opa (s : State) (o : Output) : (completeOk s o).opa = s.opa := rfl
@[simp] theorem completeOk_opb (s : State) (o : Output) : (completeOk s o).opb = s.opb := rfl
@[simp] theorem completeOk_opc (s : State) (o : Output) : (completeOk s o).opc = s.opc := rfl
@[simp] theorem completeOk_ilen (s : State) (o : Output) : (completeOk s o).ilen = s.ilen := rfl
@[simp] theorem completeOk_err (s : State) (o : Output) : (completeOk s o).err = false := rfl
@[simp] theorem completeOk_valid (s : State) (o : Output) : (completeOk s o).valid = true := rfl
@[simp] theorem completeOk_ecode (s : State) (o : Output) : (completeOk s o).ecode = 0 := rfl
@[simp] theorem completeOk_res (s : State) (o : Output) : (completeOk s o).res = o.res := rfl
@[simp] theorem completeOk_olen (s : State) (o : Output) :
    (completeOk s o).olen = lo64 o.seq.length := rfl
@[simp] theorem completeOk_errval (s : State) (o : Output) : (completeOk s o).errval = 0 := rfl
@[simp] theorem completeOk_errbnd (s : State) (o : Output) : (completeOk s o).errbnd = 0 := rfl
@[simp] theorem completeOk_ibuf (s : State) (o : Output) : (completeOk s o).ibuf = s.ibuf := rfl
@[simp] theorem completeOk_obuf (s : State) (o : Output) :
    (completeOk s o).obuf = s.obuf.storeAll 0 o.seq := rfl
@[simp] theorem completeOk_inFlight (s : State) (o : Output) : (completeOk s o).inFlight = none := rfl
@[simp] theorem completeOk_events (s : State) (o : Output) : (completeOk s o).events = s.events := rfl
@[simp] theorem completeOk_replies (s : State) (o : Output) :
    (completeOk s o).replies = s.replies := rfl
@[simp] theorem completeOk_draws (s : State) (o : Output) : (completeOk s o).draws = s.draws := rfl

@[simp] theorem completeError_params (s : State) (e : Raise) :
    (completeError s e).params = s.params := rfl
@[simp] theorem completeError_rst (s : State) (e : Raise) : (completeError s e).rst = s.rst := rfl
@[simp] theorem completeError_cmd (s : State) (e : Raise) : (completeError s e).cmd = s.cmd := rfl
@[simp] theorem completeError_opa (s : State) (e : Raise) : (completeError s e).opa = s.opa := rfl
@[simp] theorem completeError_opb (s : State) (e : Raise) : (completeError s e).opb = s.opb := rfl
@[simp] theorem completeError_opc (s : State) (e : Raise) : (completeError s e).opc = s.opc := rfl
@[simp] theorem completeError_ilen (s : State) (e : Raise) : (completeError s e).ilen = s.ilen := rfl
@[simp] theorem completeError_err (s : State) (e : Raise) : (completeError s e).err = true := rfl
@[simp] theorem completeError_valid (s : State) (e : Raise) : (completeError s e).valid = true := rfl
@[simp] theorem completeError_ecode (s : State) (e : Raise) :
    (completeError s e).ecode = errorCode e.kind := rfl
@[simp] theorem completeError_res (s : State) (e : Raise) : (completeError s e).res = 0 := rfl
@[simp] theorem completeError_olen (s : State) (e : Raise) : (completeError s e).olen = 0 := rfl
@[simp] theorem completeError_errval (s : State) (e : Raise) : (completeError s e).errval = e.val := rfl
@[simp] theorem completeError_errbnd (s : State) (e : Raise) : (completeError s e).errbnd = e.bnd := rfl
@[simp] theorem completeError_ibuf (s : State) (e : Raise) : (completeError s e).ibuf = s.ibuf := rfl
@[simp] theorem completeError_obuf (s : State) (e : Raise) : (completeError s e).obuf = s.obuf := rfl
@[simp] theorem completeError_inFlight (s : State) (e : Raise) :
    (completeError s e).inFlight = none := rfl
@[simp] theorem completeError_events (s : State) (e : Raise) :
    (completeError s e).events = s.events := rfl
@[simp] theorem completeError_replies (s : State) (e : Raise) :
    (completeError s e).replies = s.replies := rfl
@[simp] theorem completeError_draws (s : State) (e : Raise) : (completeError s e).draws = s.draws := rfl

@[simp] theorem resetRegisters_params (s : State) : (resetRegisters s).params = s.params := rfl
@[simp] theorem resetRegisters_rst (s : State) : (resetRegisters s).rst = s.rst := rfl
@[simp] theorem resetRegisters_cmd (s : State) : (resetRegisters s).cmd = 0 := rfl
@[simp] theorem resetRegisters_opa (s : State) : (resetRegisters s).opa = 0 := rfl
@[simp] theorem resetRegisters_opb (s : State) : (resetRegisters s).opb = 0 := rfl
@[simp] theorem resetRegisters_opc (s : State) : (resetRegisters s).opc = 0 := rfl
@[simp] theorem resetRegisters_ilen (s : State) : (resetRegisters s).ilen = 0 := rfl
@[simp] theorem resetRegisters_err (s : State) : (resetRegisters s).err = false := rfl
@[simp] theorem resetRegisters_valid (s : State) : (resetRegisters s).valid = false := rfl
@[simp] theorem resetRegisters_ecode (s : State) : (resetRegisters s).ecode = 0 := rfl
@[simp] theorem resetRegisters_res (s : State) : (resetRegisters s).res = 0 := rfl
@[simp] theorem resetRegisters_olen (s : State) : (resetRegisters s).olen = 0 := rfl
@[simp] theorem resetRegisters_errval (s : State) : (resetRegisters s).errval = 0 := rfl
@[simp] theorem resetRegisters_errbnd (s : State) : (resetRegisters s).errbnd = 0 := rfl
@[simp] theorem resetRegisters_ibuf (s : State) :
    (resetRegisters s).ibuf = { written := [], draw := s.ibuf.draw + 1 } := rfl
@[simp] theorem resetRegisters_obuf (s : State) :
    (resetRegisters s).obuf = { written := [], draw := s.obuf.draw + 1 } := rfl
@[simp] theorem resetRegisters_inFlight (s : State) : (resetRegisters s).inFlight = none := rfl
@[simp] theorem resetRegisters_events (s : State) : (resetRegisters s).events = s.events := rfl
@[simp] theorem resetRegisters_replies (s : State) : (resetRegisters s).replies = s.replies := rfl
@[simp] theorem resetRegisters_draws (s : State) : (resetRegisters s).draws = s.draws := rfl

@[simp] theorem hostRead_params (s : State) (off n : Nat) : (hostRead s off n).params = s.params := rfl
@[simp] theorem hostRead_rst (s : State) (off n : Nat) : (hostRead s off n).rst = s.rst := rfl
@[simp] theorem hostRead_cmd (s : State) (off n : Nat) : (hostRead s off n).cmd = s.cmd := rfl
@[simp] theorem hostRead_opa (s : State) (off n : Nat) : (hostRead s off n).opa = s.opa := rfl
@[simp] theorem hostRead_opb (s : State) (off n : Nat) : (hostRead s off n).opb = s.opb := rfl
@[simp] theorem hostRead_opc (s : State) (off n : Nat) : (hostRead s off n).opc = s.opc := rfl
@[simp] theorem hostRead_ilen (s : State) (off n : Nat) : (hostRead s off n).ilen = s.ilen := rfl
@[simp] theorem hostRead_err (s : State) (off n : Nat) : (hostRead s off n).err = s.err := rfl
@[simp] theorem hostRead_valid (s : State) (off n : Nat) : (hostRead s off n).valid = s.valid := rfl
@[simp] theorem hostRead_ecode (s : State) (off n : Nat) : (hostRead s off n).ecode = s.ecode := rfl
@[simp] theorem hostRead_res (s : State) (off n : Nat) : (hostRead s off n).res = s.res := rfl
@[simp] theorem hostRead_olen (s : State) (off n : Nat) : (hostRead s off n).olen = s.olen := rfl
@[simp] theorem hostRead_errval (s : State) (off n : Nat) : (hostRead s off n).errval = s.errval := rfl
@[simp] theorem hostRead_errbnd (s : State) (off n : Nat) : (hostRead s off n).errbnd = s.errbnd := rfl
@[simp] theorem hostRead_ibuf (s : State) (off n : Nat) : (hostRead s off n).ibuf = s.ibuf := rfl
@[simp] theorem hostRead_obuf (s : State) (off n : Nat) : (hostRead s off n).obuf = s.obuf := rfl
@[simp] theorem hostRead_inFlight (s : State) (off n : Nat) :
    (hostRead s off n).inFlight = s.inFlight := rfl
@[simp] theorem hostRead_events (s : State) (off n : Nat) : (hostRead s off n).events = s.events := rfl
@[simp] theorem hostRead_replies (s : State) (off n : Nat) :
    (hostRead s off n).replies = .readData (memRead s off n) (busError s off n) :: s.replies := rfl
@[simp] theorem hostRead_draws (s : State) (off n : Nat) : (hostRead s off n).draws = s.draws := rfl

@[simp] theorem withFetchWord_params (s : State) (n w : Nat) :
    (s.withFetchWord n w).params = s.params := rfl
@[simp] theorem withFetchWord_rst (s : State) (n w : Nat) : (s.withFetchWord n w).rst = false := rfl
@[simp] theorem withFetchWord_cmd (s : State) (n w : Nat) :
    (s.withFetchWord n w).cmd = BitVec.ofNat 64 (w % 2 ^ n) := rfl
@[simp] theorem withFetchWord_opa (s : State) (n w : Nat) : (s.withFetchWord n w).opa = s.opa := rfl
@[simp] theorem withFetchWord_opb (s : State) (n w : Nat) : (s.withFetchWord n w).opb = s.opb := rfl
@[simp] theorem withFetchWord_opc (s : State) (n w : Nat) : (s.withFetchWord n w).opc = s.opc := rfl
@[simp] theorem withFetchWord_ilen (s : State) (n w : Nat) : (s.withFetchWord n w).ilen = s.ilen := rfl
@[simp] theorem withFetchWord_err (s : State) (n w : Nat) : (s.withFetchWord n w).err = s.err := rfl
@[simp] theorem withFetchWord_valid (s : State) (n w : Nat) :
    (s.withFetchWord n w).valid = s.valid := rfl
@[simp] theorem withFetchWord_ecode (s : State) (n w : Nat) :
    (s.withFetchWord n w).ecode = s.ecode := rfl
@[simp] theorem withFetchWord_res (s : State) (n w : Nat) : (s.withFetchWord n w).res = s.res := rfl
@[simp] theorem withFetchWord_olen (s : State) (n w : Nat) : (s.withFetchWord n w).olen = s.olen := rfl
@[simp] theorem withFetchWord_errval (s : State) (n w : Nat) :
    (s.withFetchWord n w).errval = s.errval := rfl
@[simp] theorem withFetchWord_errbnd (s : State) (n w : Nat) :
    (s.withFetchWord n w).errbnd = s.errbnd := rfl
@[simp] theorem withFetchWord_ibuf (s : State) (n w : Nat) : (s.withFetchWord n w).ibuf = s.ibuf := rfl
@[simp] theorem withFetchWord_obuf (s : State) (n w : Nat) : (s.withFetchWord n w).obuf = s.obuf := rfl
@[simp] theorem withFetchWord_inFlight (s : State) (n w : Nat) :
    (s.withFetchWord n w).inFlight = some { snap := takeSnapshot s (BitVec.ofNat 64 (w % 2 ^ n)), remaining := 0 } := rfl
@[simp] theorem withFetchWord_events (s : State) (n w : Nat) :
    (s.withFetchWord n w).events = s.events := rfl
@[simp] theorem withFetchWord_replies (s : State) (n w : Nat) :
    (s.withFetchWord n w).replies = s.replies := rfl
@[simp] theorem withFetchWord_draws (s : State) (n w : Nat) :
    (s.withFetchWord n w).draws = s.draws := rfl

@[simp] theorem store_draw (b : Buffer) (i : Nat) (v : Byte) : (b.store i v).draw = b.draw := rfl
@[simp] theorem store_written (b : Buffer) (i : Nat) (v : Byte) :
    (b.store i v).written = Memory.write b.written i v := rfl
@[simp] theorem takeSnapshot_cmd (s : State) (v : Word) : (takeSnapshot s v).cmd = v := rfl
@[simp] theorem takeSnapshot_opa (s : State) (v : Word) : (takeSnapshot s v).opa = s.opa := rfl
@[simp] theorem takeSnapshot_opb (s : State) (v : Word) : (takeSnapshot s v).opb = s.opb := rfl
@[simp] theorem takeSnapshot_opc (s : State) (v : Word) : (takeSnapshot s v).opc = s.opc := rfl
@[simp] theorem takeSnapshot_ilen (s : State) (v : Word) : (takeSnapshot s v).ilen = s.ilen := rfl
@[simp] theorem takeSnapshot_ibuf (s : State) (v : Word) : (takeSnapshot s v).ibuf = s.ibuf := rfl

end Sys2Proof.Machine
end

