-- ==== Sys2Proof/Laws/Memory.lean ====
section
/-! SUPPORT. Bytes in a memory and in a buffer: a read after a write, the canonical form, and what
storing a sequence does. -/

namespace Sys2Proof.Machine

@[simp] theorem read_nil (a : Nat) : Memory.read [] a = none := rfl

theorem read_cons (k : Nat) (c : Byte) (m : Memory) (a : Nat) :
    Memory.read ((k, c) :: m) a = if a = k then some c else Memory.read m a := rfl

theorem read_write (m : Memory) (a : Nat) (b : Byte) (x : Nat) :
    Memory.read (Memory.write m a b) x = if x = a then some b else Memory.read m x := by
  induction m with
  | nil => simp [Memory.write, Memory.read]
  | cons kc m ih =>
    obtain ⟨k, c⟩ := kc
    simp only [Memory.write]
    split
    · simp [Memory.read]
    · split
      · subst_vars; simp only [Memory.read]; split <;> simp_all
      · simp only [Memory.read, ih]
        by_cases hx : x = k
        · subst hx; rw [if_pos rfl, if_neg (by omega), if_pos rfl]
        · simp [hx]

/-- The addresses a memory lists after a write. -/
theorem mem_write (m : Memory) (a : Nat) (b : Byte) (c : Host.Cell) (h : c ∈ Memory.write m a b) :
    c = (a, b) ∨ c ∈ m := by
  induction m with
  | nil => simpa [Memory.write] using h
  | cons kc m ih =>
    obtain ⟨k, d⟩ := kc
    simp only [Memory.write] at h
    split at h
    · simpa using h
    · split at h
      · rcases List.mem_cons.1 h with h | h <;> simp [h]
      · rcases List.mem_cons.1 h with h | h
        · simp [h]
        · rcases ih h with h | h <;> simp [h]

/-- A write keeps the canonical form. -/
theorem write_wf (m : Memory) (a : Nat) (b : Byte) (h : Memory.wf m) : Memory.wf (Memory.write m a b) := by
  induction m with
  | nil => simp [Memory.wf, Memory.write]
  | cons kc m ih =>
    obtain ⟨k, c⟩ := kc
    obtain ⟨hk, hm⟩ := List.pairwise_cons.1 h
    simp only [Memory.write]
    split
    case isTrue hlt =>
      refine List.pairwise_cons.2 ⟨fun x hx => ?_, h⟩
      rcases List.mem_cons.1 hx with rfl | hx
      · exact hlt
      · exact Nat.lt_trans hlt (hk x hx)
    case isFalse hge =>
      split
      case isTrue heq => subst heq; exact List.pairwise_cons.2 ⟨hk, hm⟩
      case isFalse hne =>
        refine List.pairwise_cons.2 ⟨fun x hx => ?_, ih hm⟩
        rcases mem_write m a b x hx with rfl | hx
        · show k < a; omega
        · exact hk x hx

theorem read_none_of_lt (m : Memory) (a : Nat) (h : ∀ c ∈ m, a < c.1) : Memory.read m a = none := by
  induction m with
  | nil => rfl
  | cons kc m ih =>
    obtain ⟨k, c⟩ := kc
    have hk : a < k := h (k, c) (by simp)
    rw [read_cons, if_neg (by omega)]
    exact ih fun c hc => h c (by simp [hc])

/-- In canonical form, memories that read the same are the same list. -/
theorem memory_ext (m n : Memory) (hm : Memory.wf m) (hn : Memory.wf n)
    (h : ∀ a, Memory.read m a = Memory.read n a) : m = n := by
  induction m generalizing n with
  | nil =>
    cases n with
    | nil => rfl
    | cons kc n => obtain ⟨k, c⟩ := kc; simpa [Memory.read] using h k
  | cons kc m ih =>
    obtain ⟨k, c⟩ := kc
    cases n with
    | nil => simpa [Memory.read] using h k
    | cons ld n =>
      obtain ⟨l, d⟩ := ld
      obtain ⟨hk, hm'⟩ := List.pairwise_cons.1 hm
      obtain ⟨hl, hn'⟩ := List.pairwise_cons.1 hn
      have hkl : k = l := by
        rcases Nat.lt_trichotomy k l with hlt | heq | hgt
        · have hr := h k
          rw [read_cons, read_cons, if_pos rfl, if_neg (by omega),
            read_none_of_lt n k fun c hc => Nat.lt_trans hlt (hl c hc)] at hr
          simp at hr
        · exact heq
        · have hr := h l
          rw [read_cons, read_cons, if_pos rfl, if_neg (by omega),
            read_none_of_lt m l fun c hc => Nat.lt_trans hgt (hk c hc)] at hr
          simp at hr
      subst hkl
      have hcd : c = d := by simpa [Memory.read] using h k
      subst hcd
      rw [ih n hm' hn' fun a => ?_]
      by_cases hak : a = k
      · subst hak; rw [read_none_of_lt m a hk, read_none_of_lt n a hl]
      · simpa [Memory.read, hak] using h a

/-! ### Buffers -/

@[simp] theorem ibufByte_store (b : Buffer) (i : Nat) (v : Byte) (j : Nat) :
    ibufByte (b.store i v) j = if j = i then v else ibufByte b j := by
  simp only [ibufByte, store_written, store_draw, read_write]; split <;> simp

@[simp] theorem obufByte_store (b : Buffer) (i : Nat) (v : Byte) (j : Nat) :
    obufByte (b.store i v) j = if j = i then v else obufByte b j := by
  simp only [obufByte, store_written, store_draw, read_write]; split <;> simp

@[simp] theorem storeAll_draw (b : Buffer) (i : Nat) (vs : List Byte) : (b.storeAll i vs).draw = b.draw := by
  induction vs generalizing b i with
  | nil => rfl
  | cons v vs ih => simp [Buffer.storeAll, ih]

/-- The stored byte at any index after a sequence is stored from `i` on. -/
theorem obufByte_storeAll (b : Buffer) (i : Nat) (vs : List Byte) (j : Nat) :
    obufByte (b.storeAll i vs) j =
      if i ≤ j ∧ j < i + vs.length then vs.getD (j - i) 0 else obufByte b j := by
  induction vs generalizing b i with
  | nil => simp [Buffer.storeAll]
  | cons v vs ih =>
    rw [Buffer.storeAll, ih, obufByte_store]
    by_cases hj : j = i
    · subst hj; rw [if_neg (by omega)]; simp
    · rw [if_neg hj]
      by_cases hin : i + 1 ≤ j ∧ j < i + 1 + vs.length
      · rw [if_pos hin, if_pos (by simp only [List.length_cons]; omega),
          show j - i = (j - (i + 1)) + 1 by omega, List.getD_cons_succ]
      · rw [if_neg hin, if_neg (by simp only [List.length_cons]; omega)]

/-- Which bytes of a buffer are listed after a sequence is stored. -/
theorem read_storeAll_isSome (b : Buffer) (i : Nat) (vs : List Byte) (j : Nat)
    (h : (i ≤ j ∧ j < i + vs.length) ∨ (Memory.read b.written j).isSome = true) :
    (Memory.read (b.storeAll i vs).written j).isSome = true := by
  induction vs generalizing b i with
  | nil => rcases h with h | h
           · simp at h; omega
           · exact h
  | cons v vs ih =>
    apply ih
    by_cases hj : j = i
    · right; simp [read_write, hj]
    · rcases h with h | h
      · left; simp only [List.length_cons] at h; omega
      · right; simp [read_write, hj, h]

theorem store_sorted (b : Buffer) (i : Nat) (v : Byte) (h : Memory.wf b.written) :
    Memory.wf (b.store i v).written := write_wf _ _ _ h

theorem storeAll_sorted (b : Buffer) (i : Nat) (vs : List Byte) (h : Memory.wf b.written) :
    Memory.wf (b.storeAll i vs).written := by
  induction vs generalizing b i with
  | nil => exact h
  | cons v vs ih => exact ih _ _ (store_sorted b i v h)

theorem store_inside (cap : Nat) (b : Buffer) (i : Nat) (v : Byte) (hi : i < cap)
    (h : ∀ c ∈ b.written, c.1 < cap) : ∀ c ∈ (b.store i v).written, c.1 < cap := by
  intro c hc
  rcases mem_write _ _ _ _ hc with rfl | hc
  · exact hi
  · exact h c hc

theorem storeAll_inside (cap : Nat) (b : Buffer) (i : Nat) (vs : List Byte) (hi : i + vs.length ≤ cap)
    (h : ∀ c ∈ b.written, c.1 < cap) : ∀ c ∈ (b.storeAll i vs).written, c.1 < cap := by
  induction vs generalizing b i with
  | nil => exact h
  | cons v vs ih =>
    simp only [List.length_cons] at hi
    exact ih _ _ (by omega) (store_inside cap b i v (by omega) h)

end Sys2Proof.Machine
end

