-- ==== Sys2Proof/Laws/Ops.lean ====
section
/-! SUPPORT. What the shared operations of a command can do: completion, its two kinds of outputs, issue
and the latency. -/

namespace Sys2Proof.Machine

/-- The pseudocode of a command, as a function of its snapshot. -/
def commandResult (bufCap : Nat) : Instr → Snapshot → Result
  | .nthbit => nthbitResult
  | .partofbyte => partofbyteResult
  | .nthbyte ft => nthbyteResult bufCap ft
  | .bytesfromto ft f8 => bytesfromtoResult bufCap ft f8
  | .inttostring sz => inttostringResult bufCap sz
  | .stringtoint => stringtointResult bufCap

/-- Every command is a completion with its pseudocode's result. -/
theorem exec_eq_completing (i : Instr) (s : State) :
    exec i s = completing s (commandResult s.params.bufCap i) := by cases i <;> rfl

theorem completing_inFlight (s : State) (f : Snapshot → Result) (c : InFlight) (h : s.inFlight = some c) :
    completing s f = .next (complete s (f c.snap)) := by simp [completing, h]

/-- With a command in flight, a command completes. -/
theorem exec_inFlight (i : Instr) (s : State) (c : InFlight) (h : s.inFlight = some c) :
    exec i s = .next (complete s (commandResult s.params.bufCap i c.snap)) := by
  rw [exec_eq_completing, completing_inFlight _ _ _ h]

@[simp] theorem issued_inFlight (s : State) (S : Snapshot) :
    (issued s S).inFlight = some { snap := S, remaining := 0 } := rfl

@[simp] theorem issued_params (s : State) (S : Snapshot) : (issued s S).params = s.params := rfl

@[simp] theorem issued_obuf (s : State) (S : Snapshot) : (issued s S).obuf = s.obuf := rfl

@[simp] theorem issued_rst (s : State) (S : Snapshot) : (issued s S).rst = s.rst := rfl

theorem exec_issued (i : Instr) (s : State) (S : Snapshot) :
    exec i (issued s S) = .next (complete (issued s S) (commandResult s.params.bufCap i S)) :=
  exec_inFlight i (issued s S) { snap := S, remaining := 0 } rfl

/-- What a completion can be. -/
theorem completing_next (s t : State) (f : Snapshot → Result) (h : completing s f = .next t) :
    ∃ c, s.inFlight = some c ∧ t = complete s (f c.snap) := by
  cases hc : s.inFlight with
  | none => simp [completing, hc] at h
  | some c => exact ⟨c, rfl, by simpa [completing, hc] using h.symm⟩

theorem complete_raise (s : State) (e : ErrorKind) (val bnd : Word) :
    complete s (raise e val bnd) = errorReport s e val bnd := rfl

theorem complete_error (s : State) (e : Raise) :
    complete s (.error e) = errorReport s e.kind e.val e.bnd := rfl

theorem complete_okWord (s : State) (r : Word) : complete s (okWord r) = wordReport s r := by
  simp [complete, okWord, completeOk, endCommand, wordReport, completionErr, completionEcode, lo64,
    Buffer.storeAll]

theorem lo64_natCast (n : Nat) : lo64 (n : Int) = BitVec.ofNat 64 n := by
  simp [lo64]

/-- A completion with bytes reports them. -/
theorem complete_okBytes (s : State) (seq : List Byte) (h : seq.length < 2 ^ 64) :
    BytesReport s seq (complete s (okBytes seq)) where
  registers := by
    simp [complete, okBytes, completeOk, endCommand, completionErr, completionEcode, lo64_natCast]
  shown i := by
    have hlen : (lo64 (seq.length : Int)).toNat = seq.length := by
      rw [lo64_natCast, BitVec.toNat_ofNat, Nat.mod_eq_of_lt h]
    simp only [complete, okBytes, State.obufRead, completeOk_olen, completeOk_obuf, hlen,
      obufByte_storeAll]
    by_cases hi : i < seq.length
    · rw [if_pos hi, if_pos (by omega), Nat.sub_zero]
    · rw [if_neg hi, List.getD_eq_default _ _ (by omega)]
  kept i hi := by
    simp only [complete, okBytes, completeOk_obuf, obufByte_storeAll]
    rw [if_neg (by omega)]

/-- A completion keeps everything that is no output. -/
theorem complete_keepsInputs (s : State) (r : Result) : KeepsInputs s (complete s r) := by
  cases r <;> exact ⟨rfl, rfl, rfl, rfl, rfl, fun _ => rfl, rfl, rfl, rfl, rfl, rfl⟩

@[simp] theorem complete_inFlight (s : State) (r : Result) : (complete s r).inFlight = none := by
  cases r <;> rfl

@[simp] theorem complete_valid (s : State) (r : Result) : (complete s r).valid = true := by
  cases r <;> rfl

/-- Two completions with the same result report the same (10_state.md R45). -/
theorem complete_sameReport (s u : State) (r : Result) (h : ∀ o, r = .ok o → o.seq.length < 2 ^ 64) :
    SameReport (complete s r) (complete u r) := by
  cases r with
  | error e => exact ⟨rfl, rfl, rfl, rfl, rfl, rfl, fun i => by simp [complete, State.obufRead]⟩
  | ok o =>
    refine ⟨rfl, rfl, rfl, rfl, rfl, rfl, fun i => ?_⟩
    have ho := h o rfl
    have hlen : (lo64 (o.seq.length : Int)).toNat = o.seq.length := by
      rw [lo64_natCast, BitVec.toNat_ofNat, Nat.mod_eq_of_lt ho]
    simp only [complete, State.obufRead, completeOk_olen, completeOk_obuf, hlen, obufByte_storeAll]
    split
    · rw [if_pos (by omega), if_pos (by omega)]
    · rfl

/-- A latency is within MAX_LATENCY (70_reset_and_hazards.md R230). -/
theorem latency_le (p : Params) (k : Nat) : latency p k ≤ p.maxLatency := by
  unfold latency
  split
  · omega
  · exact Nat.le_of_lt_succ (Nat.mod_lt _ (by omega))

theorem busy_eq (s : State) : s.busy = s.inFlight.isSome := rfl

/-- A CMD write either is lost or issues (10_state.md R40, R41). -/
theorem writeCmd_cases (s : State) (v : Word) :
    (s.inFlight.isSome = true ∧ writeCmd s v = s) ∨ (s.inFlight = none ∧ writeCmd s v = issue s v) := by
  cases h : s.inFlight <;> simp [writeCmd, State.busy, h]

end Sys2Proof.Machine
end

