-- ==== Sys2Proof/Laws/Bus.lean ====
section
/-! SUPPORT. Where an access of the register window goes and what it can do, and what one step can be. -/

namespace Sys2Proof.Machine

@[simp] theorem locate_register (cap : Nat) (r : RegName) : locate cap r.offset 8 = some (.register r) := by
  cases r <;> rfl

theorem locate_ibuf (cap i : Nat) (h : i < cap) (hc : cap ≤ 4096) :
    locate cap (0x1000 + i) 1 = some (.ibuf i) := by
  unfold locate
  rw [if_neg (by omega), if_pos (by omega), if_pos rfl, Nat.add_sub_cancel_left, if_pos h]

theorem locate_obuf (cap i : Nat) (h : i < cap) (hc : cap ≤ 4096) :
    locate cap (0x2000 + i) 1 = some (.obuf i) := by
  unfold locate
  rw [if_neg (by omega), if_neg (by omega), if_pos (by omega), if_pos rfl, Nat.add_sub_cancel_left,
    if_pos h]

/-- IBUF indices the window reaches lie inside the buffer. -/
theorem locate_ibuf_lt (cap off n i : Nat) (h : locate cap off n = some (.ibuf i)) : i < cap := by
  unfold locate at h
  split at h
  · split at h
    · split at h <;> simp at h
    · simp at h
  · split at h
    · split at h
      · split at h
        · simp at h; omega
        · simp at h
      · simp at h
    · split at h
      · split at h
        · split at h <;> simp at h
        · simp at h
      · simp at h

theorem memRead_register (s : State) (r : RegName) (h : s.rst = false) :
    memRead s r.offset 8 = readRegister s r := by
  simp [memRead, h, readLocation]

theorem memWrite_register (s : State) (r : RegName) (v : Word) (h : s.rst = false) :
    memWrite s r.offset 8 v = writeRegister s r v := by
  simp [memWrite, h, writeLocation]

/-- What a host write can be: nothing, a CMD write, a new operand, or a byte of IBUF. -/
theorem memWrite_cases (s : State) (off n : Nat) (v : Word) :
    memWrite s off n v = s ∨
    (s.rst = false ∧ memWrite s off n v = writeCmd s v) ∨
    memWrite s off n v = { s with opa := v } ∨
    memWrite s off n v = { s with opb := v } ∨
    memWrite s off n v = { s with opc := v } ∨
    memWrite s off n v = { s with ilen := v } ∨
    (∃ i, i < s.params.bufCap ∧ memWrite s off n v = { s with ibuf := s.ibuf.store i (v.setWidth 8) }) := by
  unfold memWrite
  split
  · exact .inl rfl
  case isFalse hr =>
    split
    case h_2 => exact .inl rfl
    case h_1 l hl =>
      cases l with
      | register r => cases r <;> simp [writeLocation, writeRegister, hr]
      | ibuf i => simpa [writeLocation] using .inr (.inr (.inr (.inr (.inr (.inr ⟨i, locate_ibuf_lt _ _ _ _ hl, rfl⟩)))))
      | obuf i => exact .inl rfl
      | reserved => exact .inl rfl

/-- A host write keeps the outputs, the parameters, RST, the answers and what the outside does. -/
theorem memWrite_frame (s : State) (off n : Nat) (v : Word) :
    KeepsOutputs s (memWrite s off n v) ∧ (memWrite s off n v).params = s.params ∧
      (memWrite s off n v).rst = s.rst ∧ (memWrite s off n v).events = s.events := by
  rcases memWrite_cases s off n v with h | ⟨-, h⟩ | h | h | h | h | ⟨i, -, h⟩
  case inr.inl =>
    rcases writeCmd_cases s v with ⟨-, h'⟩ | ⟨-, h'⟩ <;> rw [h, h'] <;>
      exact ⟨⟨rfl, rfl, rfl, rfl, rfl, rfl, rfl, rfl⟩, rfl, rfl, rfl⟩
  all_goals rw [h]; exact ⟨⟨rfl, rfl, rfl, rfl, rfl, rfl, rfl, rfl⟩, rfl, rfl, rfl⟩

/-- A host write while a command is in flight leaves that command alone (10_state.md R41, R46). -/
theorem memWrite_inFlight (s : State) (off n : Nat) (v : Word) (h : s.inFlight.isSome = true) :
    (memWrite s off n v).inFlight = s.inFlight := by
  rcases memWrite_cases s off n v with h' | ⟨-, h'⟩ | h' | h' | h' | h' | ⟨i, -, h'⟩
  case inr.inl =>
    rcases writeCmd_cases s v with ⟨-, h''⟩ | ⟨hn, -⟩
    · rw [h', h'']
    · simp [hn] at h
  all_goals rw [h']

/-- What one event can be. -/
theorem applyEvent_cases (s : State) (e : Event) :
    applyEvent s e = s ∨
    (∃ a off n, e = .read a n ∧ windowOffset s.params a = some off ∧ applyEvent s e = hostRead s off n) ∨
    (∃ a off n v, e = .write a n v ∧ windowOffset s.params a = some off ∧
      applyEvent s e = hostWrite s off n v) ∨
    (e = .clock ∧ applyEvent s e = clockTick s) ∨
    (∃ b, e = .rst b ∧ applyEvent s e = driveRst s b) := by
  cases e with
  | read a n =>
    cases h : windowOffset s.params a with
    | none => exact .inl (by simp [applyEvent, h])
    | some off => exact .inr (.inl ⟨a, off, n, rfl, h, by simp [applyEvent, h]⟩)
  | write a n v =>
    cases h : windowOffset s.params a with
    | none => exact .inl (by simp [applyEvent, h])
    | some off => exact .inr (.inr (.inl ⟨a, off, n, v, rfl, h, by simp [applyEvent, h]⟩))
  | clock => exact .inr (.inr (.inr (.inl ⟨rfl, rfl⟩)))
  | rst b => exact .inr (.inr (.inr (.inr ⟨b, rfl, rfl⟩)))

/-- Only an 8-byte access at offset 0 reaches CMD. -/
theorem locate_cmd (cap off n : Nat) (h : locate cap off n = some (.register .cmd)) : off = 0 ∧ n = 8 := by
  unfold locate at h
  split at h
  · split at h
    case isTrue hn =>
      cases hr : registerAt off with
      | none => simp [hr] at h
      | some r =>
        simp only [hr, Option.some.injEq, Location.register.injEq] at h
        subst h
        have := List.find?_some hr
        simp only [RegName.offset, beq_iff_eq] at this
        omega
    · cases h
  · split_ifs at h <;> simp at h

/-- A write that does not reach CMD leaves the command in flight as it is. -/
theorem memWrite_inFlight_of_not_cmd (s : State) (off n : Nat) (v : Word) (h : ¬(off = 0 ∧ n = 8)) :
    (memWrite s off n v).inFlight = s.inFlight := by
  unfold memWrite
  split
  · rfl
  · cases hl : locate s.params.bufCap off n with
    | none => rfl
    | some l =>
      cases l with
      | register r => cases r <;> first | rfl | exact absurd (locate_cmd _ _ _ hl) h
      | _ => rfl

theorem windowOffset_inside (p : Params) (off : Nat) (h : off < 0x3000) :
    windowOffset p (p.wbcBase + off) = some off := by
  unfold windowOffset
  rw [if_pos (by omega)]
  simp

theorem windowOffset_outside (p : Params) (a : Nat) (h : a < p.wbcBase ∨ p.wbcBase + 0x3000 ≤ a) :
    windowOffset p a = none := by
  unfold windowOffset
  rw [if_neg (by omega)]

/-- When a completion is due. -/
theorem completionDue_iff (s : State) (S : Snapshot) :
    completionDue s = some S ↔
      s.rst = false ∧ ∃ c, s.inFlight = some c ∧ c.remaining = 0 ∧ c.snap = S := by
  unfold completionDue
  cases hr : s.rst <;> cases hc : s.inFlight <;> simp

/-- What one step can be: a completion with some result of the snapshot, or the next event. -/
theorem step_cases (s t : State) (h : step s = .next t) :
    (∃ c, s.rst = false ∧ s.inFlight = some c ∧ c.remaining = 0 ∧
      ((∃ i, decode c.snap.cmd = .ok i ∧ t = complete s (commandResult s.params.bufCap i c.snap)) ∨
       (∃ e, decode c.snap.cmd = .error e ∧ t = complete s (illegalWord c.snap)))) ∨
    (completionDue s = none ∧ t = nextEvent s) := by
  unfold step at h
  cases hd : completionDue s with
  | none => rw [hd] at h; exact .inr ⟨rfl, by simpa using h.symm⟩
  | some S =>
    obtain ⟨hr, c, hc, h0, rfl⟩ := (completionDue_iff s S).1 hd
    refine .inl ⟨c, hr, hc, h0, ?_⟩
    rw [hd] at h
    cases hdec : decode c.snap.cmd with
    | ok i =>
      simp only [hdec, exec_inFlight i s c hc] at h
      exact .inl ⟨i, rfl, by simpa using h.symm⟩
    | error e =>
      simp only [hdec, completing_inFlight s _ c hc] at h
      exact .inr ⟨e, rfl, by simpa using h.symm⟩

end Sys2Proof.Machine
end

