-- ==== Sys2Proof/Laws/Commands.lean ====
section
/-! SUPPORT. The readings of a word, the parts of a command's operands, and the shape of a command's
result. -/

namespace Sys2Proof.Machine

/-- A word that reads non-negative reads the same signed and unsigned. -/
theorem sint_nonneg (v : Word) (h0 : 0 ≤ sint v) : sint v = uint v := by
  have h := BitVec.toInt_eq_toNat_cond v
  have := v.isLt
  simp only [sint, uint] at *
  rw [h] at h0 ⊢
  split at h0
  · rw [if_pos (by assumption)]
  · omega

theorem sint_ofNat (n : Nat) (h : n < 2 ^ 63) : sint (BitVec.ofNat 64 n) = n := by
  have hn : (BitVec.ofNat 64 n).toNat = n := by rw [BitVec.toNat_ofNat]; omega
  simp only [sint]
  rw [BitVec.toInt_eq_toNat_cond, hn, if_pos (by omega)]

theorem sint_lo64 (z : Int) (h1 : -2 ^ 63 ≤ z) (h2 : z < 2 ^ 63) : sint (lo64 z) = z := by
  simp only [sint, lo64, BitVec.toInt_ofInt]
  rw [Int.bmod_def]
  split <;> omega

theorem zext64_byte (b : Byte) : zext64 8 b = BitVec.ofNat 64 b.toNat := by
  apply BitVec.eq_of_toNat_eq
  have := b.isLt
  simp [zext64]

@[simp] theorem inputBytes_length (S : Snapshot) : (inputBytes S).length = uint S.ilen := by
  simp [inputBytes]

theorem inputBytes_getD (S : Snapshot) (i : Nat) (h : i < uint S.ilen) :
    (inputBytes S).getD i 0 = ibufByte S.ibuf i := by
  simp [inputBytes, List.getD, h]

/-- The frame view reads IBUF for FT = 0, OPA for FT = 1 and nothing else. -/
theorem frameView_congr (cap : Nat) (ft : BitVec 2) (S T : Snapshot) (h0 : ft = 0 → SameInput S T)
    (h1 : ft = 1 → S.opa = T.opa) : frameView cap ft S = frameView cap ft T := by
  unfold frameView
  split
  case isTrue h =>
    obtain ⟨hi, hb⟩ := h0 h
    unfold inputFrame inputBytes
    rw [← hi]
    split
    · rfl
    · congr 1; apply List.map_congr_left; intro j hj; exact hb j (by simpa using hj)
  · split
    case isTrue h => unfold integerFrameOperand; rw [h1 h]
    · rfl

/-- No command gives more bytes than OLEN can count. -/
theorem commandResult_length (cap : Nat) (i : Instr) (S : Snapshot) (o : Output)
    (h : commandResult cap i S = .ok o) : o.seq.length < 2 ^ 64 := by
  cases i with
  | inttostring sz =>
    simp only [commandResult, inttostringResult] at h
    have hw := width_le (integerOperand S)
    have hm : sizeOperand S < 2 ^ 63 := by
      have := BitVec.toInt_lt (x := S.opb)
      unfold sizeOperand sint
      omega
    split at h
    · split at h
      · simp [raise] at h
      · simp only [okBytes, Except.ok.injEq] at h; subst h
        simp only [fitBytes]; split
        · simp; omega
        · simp; omega
    · simp only [okBytes, Except.ok.injEq] at h; subst h; simp; omega
  | nthbit => simp only [commandResult, nthbitResult, raise, okWord] at h; split_ifs at h <;> cases h <;> simp
  | partofbyte => simp only [commandResult, partofbyteResult, raise, okWord] at h; split_ifs at h <;> cases h <;> simp
  | stringtoint =>
    simp only [commandResult, stringtointResult, raise, okWord] at h
    split at h
    · simp at h
    · split_ifs at h; cases h; simp
  | nthbyte ft =>
    simp only [commandResult, nthbyteResult, byteAtIndex, raise, okWord] at h
    split at h
    · simp at h
    · split_ifs at h; cases h; simp
  | bytesfromto ft f8 =>
    simp only [commandResult, bytesfromtoResult, foldRange, raise, okWord] at h
    split at h
    · simp at h
    · split at h
      · simp at h
      · split_ifs at h; cases h; simp

theorem failsWith_of_result (i : Instr) (s : State) (c : InFlight) (hc : s.inFlight = some c)
    (e : ErrorKind) (val bnd : Word) (h : commandResult s.params.bufCap i c.snap = raise e val bnd) :
    FailsWith i s e val bnd := by
  rw [FailsWith, exec_inFlight _ _ _ hc, h, complete_raise]

theorem givesWord_of_result (i : Instr) (s : State) (c : InFlight) (hc : s.inFlight = some c) (r : Word)
    (h : commandResult s.params.bufCap i c.snap = okWord r) : GivesWord i s r := by
  rw [GivesWord, exec_inFlight _ _ _ hc, h, complete_okWord]

theorem givesBytes_of_result (i : Instr) (s : State) (c : InFlight) (hc : s.inFlight = some c)
    (r : List Byte) (hl : r.length < 2 ^ 64) (h : commandResult s.params.bufCap i c.snap = okBytes r) :
    GivesBytes i s r :=
  ⟨_, by rw [exec_inFlight _ _ _ hc, h], complete_okBytes s r hl⟩

/-- Two commands with the same result report the same. -/
theorem exec_sameReport (s : State) (S T : Snapshot) (i j : Instr)
    (h : commandResult s.params.bufCap i S = commandResult s.params.bufCap j T) :
    ∃ t u, exec i (issued s S) = .next t ∧ exec j (issued s T) = .next u ∧ SameReport t u :=
  ⟨complete (issued s S) (commandResult s.params.bufCap j T),
    complete (issued s T) (commandResult s.params.bufCap j T),
    by rw [exec_issued, h], by rw [exec_issued],
    complete_sameReport _ _ _ fun o ho => commandResult_length _ _ _ _ ho⟩

end Sys2Proof.Machine
end

