-- ==== Sys2Proof/Laws/Decode.lean ====
section
/-! SUPPORT. The fields of a word as numbers, and that only words below 256 decode. -/

namespace Sys2Proof

theorem upperHalf_eq_zero (c : Word) : upperHalf c = 0 ↔ c.toNat < 2 ^ 32 := by
  have hc := c.isLt
  rw [← BitVec.toNat_inj]
  simp only [upperHalf, BitVec.extractLsb'_toNat, Nat.shiftRight_eq_div_pow]
  simp
  omega

theorem reservedBits_eq_zero (c : Word) (h : c.toNat < 2 ^ 32) : reservedBits c = 0 ↔ c.toNat < 256 := by
  rw [← BitVec.toNat_inj]
  simp only [reservedBits, BitVec.extractLsb'_toNat, Nat.shiftRight_eq_div_pow]
  simp
  omega

/-- A word from 256 on has a reserved bit set and is no command. -/
theorem decode_of_large (c : Word) (h : 256 ≤ c.toNat) : ∃ e, decode c = .error e := by
  unfold decode
  split
  · exact ⟨_, rfl⟩
  case isFalse hu =>
    have h32 : c.toNat < 2 ^ 32 := (upperHalf_eq_zero c).1 (by simpa using hu)
    rw [if_pos fun hz => by have := (reservedBits_eq_zero c h32).1 hz; omega]
    exact ⟨_, rfl⟩

end Sys2Proof
end

