-- ==== Sys2Proof/Laws/PerInstr.lean ====
section
/-! SUPPORT. One lemma per command for the family LegalWord: the word of every command passes R93's
legality check and uses only the bits R90 gives a field. -/

namespace Sys2Proof.Laws.LegalWord

/-- The word of a command is legal and below 256 (30_encoding.md R90, R93). -/
def Statement (i : Instr) : Prop := legal (encode i) = true ∧ (encode i).toNat < 256

theorem nthbit : Statement .nthbit := by unfold Statement; decide

theorem partofbyte : Statement .partofbyte := by unfold Statement; decide

theorem nthbyte (ft : BitVec 2) : Statement (.nthbyte ft) := by
  unfold Statement; revert ft; decide

theorem bytesfromto (ft : BitVec 2) (f8 : Bool) : Statement (.bytesfromto ft f8) := by
  unfold Statement; revert ft f8; decide

theorem inttostring (sz : Bool) : Statement (.inttostring sz) := by
  unfold Statement; revert sz; decide

theorem stringtoint : Statement .stringtoint := by unfold Statement; decide

end Sys2Proof.Laws.LegalWord
end

