-- ==== Sys2Proof/Tests/Slice0.lean ====
section
/-! SUPPORT. Small tests, each one step or one access with its expected result taken from
spec/95_test_vectors.md or written out from an encoding of spec/30_encoding.md, and for every statement
with hypotheses a witness that something meets them: its name is `test_witness_` and the statement's. -/

namespace Sys2Proof.Machine.Tests

/-- A legal choice of the OPEN parameters: BUF_CAP = 64. -/
def params : Params :=
  { bufCap := 64, maxLatency := 2, wbcBase := 0x10000, nInst := 1, busErrOnUnsupported := true }

/-- A block after reset. -/
def idle : State := State.resetWith params

/-- An input buffer that holds the bytes given. -/
def input (bytes : List Byte) : Buffer := Buffer.storeAll { written := [], draw := 0 } 0 bytes

/-- A snapshot. -/
def snap (cmd opa opb opc ilen : Word) (bytes : List Byte) : Snapshot :=
  { cmd := cmd, opa := opa, opb := opb, opc := opc, ilen := ilen, ibuf := input bytes }

/-- The snapshot of a command that reads no input bytes. -/
def operands (i : Instr) (opa opb opc : Word) : Snapshot := snap (encode i) opa opb opc 0 []

/-- A command in flight. -/
def flight (S : Snapshot) (remaining : Nat) : InFlight := { snap := S, remaining := remaining }

/-- What a completed command reports: the registers, and the bytes of OBUF below OLEN. -/
structure Report where
  res : Word
  olen : Nat
  err : Bool
  ecode : BitVec 4
  errval : Word
  errbnd : Word
  obuf : List Byte
  deriving DecidableEq, Repr

def report : Host.Outcome State Fault Refusal → Option Report
  | .next t =>
    some ⟨t.res, uint t.olen, t.err, t.ecode, t.errval, t.errbnd,
      (List.range (uint t.olen)).map t.obufRead⟩
  | _ => none

/-- One step with a command due whose snapshot is `S`. -/
def after (S : Snapshot) : Option Report := report (step (issued idle S))

def word (r : Word) : Option Report := some ⟨r, 0, false, 0, 0, 0, []⟩
def bytes (l : List Byte) : Option Report := some ⟨0, l.length, false, 0, 0, 0, l⟩
def fails (code : BitVec 4) (val bnd : Word) : Option Report := some ⟨0, 0, true, code, val, bnd, []⟩

/-- A block with the command of `S` due, whose snapshot meets `P`. -/
abbrev meets (S : Snapshot) (P : Snapshot → Prop) : Prop :=
  (issued idle S).inFlight = some (flight S 0) ∧ P S

/-! ### Checks that refuse -/

/-- One word for each clause of R93, refused by that clause, and the legal word beside it. -/
theorem test_ill_formed_words :
    legalReserved 0x101 = false ∧ legalOpcode 0x07 = false ∧ legalFrameTag 0x11 = false ∧
    legalForce8 0x43 = false ∧ legalSize 0x84 = false ∧
    legal 0x101 = false ∧ legal 0x07 = false ∧ legal 0x11 = false ∧ legal 0x43 = false ∧
    legal 0x84 = false ∧ legal 0x74 = true := by decide

/-- The decoder names what it rejects. -/
theorem test_decoder_rejections :
    decode 0x100000001 = .error .upperHalfNotZero ∧ decode 0x101 = .error .reservedBitsNotZero ∧
    decode 0x07 = .error .reservedOpcode ∧ decode 0x11 = .error .frameTagNotZero ∧
    decode 0x43 = .error .force8NotZero ∧ decode 0x84 = .error .sizeNotZero := by decide

/-- One choice of parameters outside R7 for each of its bounds. -/
theorem test_ill_formed_params :
    ({ params with bufCap := 7 } : Params).wellFormed = false ∧
    ({ params with bufCap := 4097 } : Params).wellFormed = false ∧
    ({ params with nInst := 0 } : Params).wellFormed = false ∧ params.wellFormed = true := by decide

/-- A host program that jumps to a label it lacks. -/
theorem test_ill_formed_program :
    programWellFormed [.jmp 1, .halt] = false ∧ programWellFormed [.jmp 1, .label 1] = true := by decide

/-- No block at all, and two blocks in one window. -/
theorem test_ill_formed_platform :
    ({ blocks := [] } : Platform).wellFormed = false ∧
    ({ blocks := [State.resetWith { params with nInst := 2 }, State.resetWith { params with nInst := 2 }] } :
      Platform).wellFormed = false ∧
    ({ blocks := [idle] } : Platform).wellFormed = true := by decide

/-! ### Words written out from R90 and R92: RSVD, SZ, F8, FT, OP -/

theorem test_decode_nthbit :
    decodeTableWord 32 (0#24 ++ 0#1 ++ 0#1 ++ 0b00#2 ++ 0b0001#4 : BitVec 32).toNat = some .nthbit := by
  decide

theorem test_decode_partofbyte :
    decodeTableWord 32 (0#24 ++ 0#1 ++ 0#1 ++ 0b00#2 ++ 0b0010#4 : BitVec 32).toNat =
      some .partofbyte := by decide

theorem test_decode_nthbyte :
    decodeTableWord 32 (0#24 ++ 0#1 ++ 0#1 ++ 0b01#2 ++ 0b0011#4 : BitVec 32).toNat =
      some (.nthbyte 1) ∧
    decodeTableWord 32 (0#24 ++ 0#1 ++ 0#1 ++ 0b10#2 ++ 0b0011#4 : BitVec 32).toNat =
      some (.nthbyte 2) := by decide

theorem test_decode_bytesfromto :
    decodeTableWord 32 (0#24 ++ 0#1 ++ 0#1 ++ 0b01#2 ++ 0b0100#4 : BitVec 32).toNat =
      some (.bytesfromto 1 false) ∧
    decodeTableWord 32 (0#24 ++ 0#1 ++ 1#1 ++ 0b00#2 ++ 0b0100#4 : BitVec 32).toNat =
      some (.bytesfromto 0 true) := by decide

theorem test_decode_inttostring :
    decodeTableWord 32 (0#24 ++ 0#1 ++ 0#1 ++ 0b00#2 ++ 0b0101#4 : BitVec 32).toNat =
      some (.inttostring false) ∧
    decodeTableWord 32 (0#24 ++ 1#1 ++ 0#1 ++ 0b00#2 ++ 0b0101#4 : BitVec 32).toNat =
      some (.inttostring true) := by decide

theorem test_decode_stringtoint :
    decodeTableWord 32 (0#24 ++ 0#1 ++ 0#1 ++ 0b00#2 ++ 0b0110#4 : BitVec 32).toNat =
      some .stringtoint := by decide

/-! ### One step each, from spec/95_test_vectors.md -/

/-- NB3 and NB4. -/
theorem test_nthbit_selects :
    after (operands .nthbit 0x01 8 0) = word 1 ∧ after (operands .nthbit 0x01 1 0) = word 0 := by decide

/-- NB15: the byte is checked before the index. -/
theorem test_nthbit_byte_first : after (operands .nthbit 300 0 0) = fails 1 0x12C 255 := by decide

/-- PB1 and PB2. -/
theorem test_partofbyte_nibbles :
    after (operands .partofbyte 0xAB 1 0) = word 0xA ∧ after (operands .partofbyte 0xAB 2 0) = word 0xB := by
  decide

/-- PB8. -/
theorem test_partofbyte_part : after (operands .partofbyte 0xAB 3 0) = fails 3 3 2 := by decide

/-- NY2 and NI1: byte 0 is the most significant. -/
theorem test_nthbyte_selects :
    after (snap 0x03 0 2 0 3 [1, 2, 3]) = word 3 ∧ after (operands (.nthbyte 1) 0x010203 0 0) = word 1 := by
  decide

/-- NI14: the frame is checked before the index; NY8: ILEN gives the length. -/
theorem test_nthbyte_fails :
    after (operands (.nthbyte 1) (-1) (-1) 0) = fails 6 (-1) 0 ∧
    after (snap 0x03 0 2 0 2 [1, 2, 3]) = fails 4 2 2 := by decide

/-- BR1 and BI5. -/
theorem test_bytesfromto_folds :
    after (snap 0x04 0 0 2 3 [1, 2, 3]) = word 0x010203 ∧
    after (operands (.bytesfromto 1 false) 0x0102030405060708 4 7) = word 0x05060708 := by decide

/-- BR10, BR14 and BR8: the width before the frame, with no wrap, and the lower bound first. -/
theorem test_bytesfromto_fails :
    after (snap 0x04 0 0 7 3 [1, 2, 3]) = fails 7 8 7 ∧
    after (snap 0x04 0 0x8000000000000000 0x7FFFFFFFFFFFFFFF 3 [1, 2, 3]) = fails 7 0 7 ∧
    after (snap 0x04 0 (-1) 3 3 [1, 2, 3]) = fails 4 (-1) 3 := by decide

/-- IS2 and IS18. -/
theorem test_inttostring_fits :
    after (operands (.inttostring true) 0x0102 4 0) = bytes [0, 0, 1, 2] ∧
    after (operands (.inttostring true) 0x0102030405060708 3 0) = bytes [6, 7, 8] := by decide

/-- IS12: OPA is read unsigned; IS15: the largest size is BUF_CAP. -/
theorem test_inttostring_bounds :
    after (operands (.inttostring false) 0x8000000000000000 0 0) = bytes [0x80, 0, 0, 0, 0, 0, 0, 0] ∧
    after (operands (.inttostring true) 0x0102 65 0) = fails 7 65 64 := by decide

/-- SI6 and SI8: only ILEN bytes are read. -/
theorem test_stringtoint_folds :
    after (snap 0x06 0 0 0 8 [0x80, 0, 0, 0, 0, 0, 0, 0]) = word 0x8000000000000000 ∧
    after (snap 0x06 0 0 0 8 [1, 2, 3, 4, 5, 6, 7, 8, 9]) = word 0x0102030405060708 := by decide

/-- SI7 and SI9. -/
theorem test_stringtoint_fails :
    after (snap 0x06 0 0 0 9 [1, 2, 3, 4, 5, 6, 7, 8, 9]) = fails 7 9 8 ∧
    after (snap 0x06 0 0 0 65 []) = fails 8 65 64 := by decide

/-- IL5 and NB19. -/
theorem test_illegal_words :
    after (snap 0x8000000000000003 0 0 0 0 []) = fails 8 0x8000000000000003 0 ∧
    after (snap 0x100000001 0x80 1 0 0 []) = fails 8 0x100000001 0 := by decide

/-- PB7: a command issued as the first one after reset, when every operand is 0. -/
theorem test_first_command_after_reset :
    report (step (State.reset.withFetchWord 32 0x00000002)) = fails 3 0 2 := by decide

/-! ### Accesses -/

/-- M1: the registers after reset. -/
theorem test_registers_after_reset :
    [0x000, 0x008, 0x010, 0x018, 0x020, 0x028, 0x030, 0x038, 0x040, 0x048, 0x050, 0x058].map
        (fun off => memRead idle off 8) =
      [0, 0, 0, 0, 0, 0, 0, 0, 0, 0, 0x5742430000000001, 64] := by decide

/-- M3 and M6: STATUS while a command is in flight, after success, and after FrameTooShort. -/
theorem test_status_word :
    memRead (issueAfter idle 1 1) 0x028 8 = 0x001 ∧
    memRead (wordReport idle 1) 0x028 8 = 0x004 ∧
    memRead (errorReport idle .frameTooShort 3 3) 0x028 8 = 0x406 := by decide

/-- M9, M10 and M11: accesses and writes that do nothing. -/
theorem test_ignored_writes :
    memWrite idle 0x000 4 1 = idle ∧ memWrite idle 0x1000 8 1 = idle ∧ memWrite idle 0x028 8 0 = idle ∧
    memWrite idle 0x030 8 5 = idle ∧ memWrite idle 0x2000 1 7 = idle := by decide

/-- M12 and M13: a reserved offset reads 0, and a byte of IBUF reads back. -/
theorem test_buffer_accesses :
    memRead idle 0x060 8 = 0 ∧ memRead idle 0x1040 1 = 0 ∧
    memRead (memWrite idle 0x1000 1 0xAB) 0x1000 1 = 0xAB := by decide

/-- R63 and U6: the bus answers an unsupported access with an error when BUS_ERR_ON_UNSUPPORTED is 1. -/
theorem test_bus_error :
    (hostRead idle 0x028 4).replies = [.readData 0 true] ∧
    (hostRead idle 0x060 8).replies = [.readData 0 false] := by decide

/-- R60 and R63: accesses at bus addresses of the window, and the answers. -/
theorem test_bus_addresses :
    (applyEvent idle (.write 0x10010 8 9)).opb = 9 ∧
    (applyEvent idle (.read 0x10050 8)).replies = [.readData 0x5742430000000001 false] ∧
    (applyEvent idle (.read 0x0FFF8 8)).replies = [] := by decide

/-- R100: LOADFRAME with a number and a host variable. -/
theorem test_loadframe :
    (CallForm.loadframe [.num 0x82, .var 1]).expand =
      [.wrb (.num 0) (.num 0x82), .wrb (.num 1) (.var 1), .wr .ilen (.num 2)] := by decide

/-- R98: the assembler refuses what is not in its table. -/
theorem test_assembler :
    assemble "BYTESFROMTO.I.F8" = some (.bytesfromto 1 true) ∧ assemble "NTHBYTE" = none := by decide

/-! ### Witnesses: encoding and the step -/

theorem test_witness_EncodeAndDecodeAgree : decode 0x74 = .ok (.bytesfromto 3 true) := by decide

/-- A due command whose word is illegal by each clause of R93, and one whose word is legal. -/
theorem test_witness_LegalityIsCheckedFirst :
    idle.rst = false ∧
    meets (snap 0x100 0 0 0 0 []) (fun S => S.cmd.toNat / 256 ≠ 0) ∧
    meets (snap 0x07 0 0 0 0 []) (fun S => S.cmd.toNat % 16 ∉ [1, 2, 3, 4, 5, 6]) ∧
    meets (snap 0x11 0 0 0 0 []) (fun S =>
      S.cmd.toNat % 16 ∈ [1, 2, 5, 6] ∧ S.cmd.toNat / 16 % 4 ≠ 0) ∧
    meets (snap 0x43 0 0 0 0 []) (fun S =>
      S.cmd.toNat % 16 ∈ [1, 2, 3, 5, 6] ∧ S.cmd.toNat / 64 % 2 ≠ 0) ∧
    meets (snap 0x84 0 0 0 0 []) (fun S =>
      S.cmd.toNat % 16 ∈ [1, 2, 3, 4, 6] ∧ S.cmd.toNat / 128 % 2 ≠ 0) ∧
    meets (snap 0x74 0 0 0 0 []) (fun S =>
      S.cmd.toNat / 256 = 0 ∧ S.cmd.toNat % 16 ∈ [1, 2, 3, 4, 5, 6] ∧
      S.cmd.toNat % 16 ∉ [1, 2, 5, 6] ∧ S.cmd.toNat % 16 ∉ [1, 2, 3, 5, 6] ∧
      S.cmd.toNat / 128 % 2 = 0) := by decide

theorem test_witness_StepRunsTheDecodedCommand :
    (issued idle (operands (.inttostring true) 0 1 0)).rst = false ∧
    (issued idle (operands (.inttostring true) 0 1 0)).inFlight =
      some (flight (operands (.inttostring true) 0 1 0) 0) ∧
    decode (operands (.inttostring true) 0 1 0).cmd = .ok (.inttostring true) := by decide

theorem test_witness_StepTakesOneEventInOrder :
    (driveRst idle true).rst = true ∧ idle.inFlight = none ∧
    (issueAfter idle 1 2).inFlight = some (flight (snap 1 0 0 0 0 []) 2) ∧
    ({ idle with events := [.clock] } : State).events = [.clock] ∧ idle.events = [] := by decide

/-! ### Witnesses: bit-field extractor, at the ends of each range -/

theorem test_witness_NthbitReportsTheSelectedBit :
    meets (operands .nthbit (-1) 1 0) (fun S => sint S.opa < 0) ∧
    meets (operands .nthbit 256 1 0) (fun S => 255 < sint S.opa) ∧
    meets (operands .nthbit 0 0 0) (fun S => 0 ≤ sint S.opa ∧ sint S.opa ≤ 255 ∧ sint S.opb < 1) ∧
    meets (operands .nthbit 255 9 0) (fun S => 0 ≤ sint S.opa ∧ sint S.opa ≤ 255 ∧ 8 < sint S.opb) ∧
    meets (operands .nthbit 0 1 0)
      (fun S => 0 ≤ sint S.opa ∧ sint S.opa ≤ 255 ∧ 1 ≤ sint S.opb ∧ sint S.opb ≤ 8) ∧
    meets (operands .nthbit 255 8 0)
      (fun S => 0 ≤ sint S.opa ∧ sint S.opa ≤ 255 ∧ 1 ≤ sint S.opb ∧ sint S.opb ≤ 8) := by decide

theorem test_witness_PartofbyteReportsTheNibble :
    meets (operands .partofbyte (-1) 1 0) (fun S => sint S.opa < 0) ∧
    meets (operands .partofbyte 256 1 0) (fun S => 255 < sint S.opa) ∧
    meets (operands .partofbyte 0 0 0)
      (fun S => 0 ≤ sint S.opa ∧ sint S.opa ≤ 255 ∧ sint S.opb ≠ 1 ∧ sint S.opb ≠ 2) ∧
    meets (operands .partofbyte 255 3 0)
      (fun S => 0 ≤ sint S.opa ∧ sint S.opa ≤ 255 ∧ sint S.opb ≠ 1 ∧ sint S.opb ≠ 2) ∧
    meets (operands .partofbyte 0 1 0) (fun S => 0 ≤ sint S.opa ∧ sint S.opa ≤ 255 ∧ sint S.opb = 1) ∧
    meets (operands .partofbyte 255 2 0)
      (fun S => 0 ≤ sint S.opa ∧ sint S.opa ≤ 255 ∧ sint S.opb = 2) := by decide

theorem test_witness_NthbitResultsRebuildTheByte :
    (operands .nthbit 255 0 0).opa = BitVec.ofNat 64 255 ∧ 255 ≤ 255 ∧
    (operands .nthbit 0 0 0).opa = BitVec.ofNat 64 0 := by decide

theorem test_witness_NibblesRebuildTheByte :
    (operands .partofbyte 255 0 0).opa = BitVec.ofNat 64 255 ∧ 255 ≤ 255 := by decide

theorem test_witness_NibblesAgreeWithBits :
    (operands .partofbyte 0xA5 0 0).opa = BitVec.ofNat 64 0xA5 ∧ 0xA5 ≤ 255 := by decide

/-! ### Witnesses: frames -/

theorem test_witness_WidthIsTheLeastThatHolds :
    0 < 2 ^ 64 ∧ 255 < 2 ^ 8 ∧ 2 ^ 64 - 1 < 2 ^ 64 ∧ width 255 = 1 ∧ width 256 = 2 ∧ width (2 ^ 64 - 1) = 8 := by
  decide

theorem test_witness_BeIsMinimalBigEndian : 256 < 2 ^ 64 ∧ 256 ≠ 0 ∧ be 256 = [1, 0] := by decide

theorem test_witness_FoldIsTheWeightedSum :
    ([1, 2, 3] : List Byte).length ≤ 8 ∧ fold [1, 2, 3] = 0x010203 := by decide

theorem test_witness_FoldAndBeAreInverse :
    1 ≤ ([1, 0] : List Byte).length ∧ ([1, 0] : List Byte).length ≤ 8 ∧
    ([1, 0] : List Byte).getD 0 0 ≠ 0 := by decide

/-- ILEN one above BUF_CAP, equal to it and 0; OPA negative, 0, and of width 8. -/
theorem test_witness_FrameViewFollowsTheTag :
    decode 0x13 = .ok (.nthbyte 1) ∧ decode 0x64 = .ok (.bytesfromto 2 true) ∧
    64 < uint (snap 0x03 0 0 0 65 []).ilen ∧ uint (snap 0x03 0 0 0 64 []).ilen ≤ 64 ∧
    uint (snap 0x03 0 0 0 0 []).ilen ≤ 64 ∧ sint (operands (.nthbyte 1) (-1) 0 0).opa < 0 ∧
    0 ≤ sint (operands (.nthbyte 1) 0 0 0).opa ∧
    0 ≤ sint (operands (.nthbyte 1) 0x7FFFFFFFFFFFFFFF 0 0).opa ∧
    (be (sint (operands (.nthbyte 1) 0x7FFFFFFFFFFFFFFF 0 0).opa).toNat).length = 8 := by decide

/-! ### Witnesses: byte-range serializer -/

/-- A frame view that fails, and indices -1, L, 0 and L - 1 of a frame of L = 3 bytes. -/
theorem test_witness_NthbyteFollowsItsRule :
    meets (snap 0x03 0 2 0 65 []) (fun S =>
      frameView params.bufCap 0 S = .error { kind := .illegalRequest, val := 65, bnd := 64 }) ∧
    meets (snap 0x03 0 (-1) 0 3 [1, 2, 3]) (fun S =>
      frameView params.bufCap 0 S = .ok [1, 2, 3] ∧ sint S.opb < 0) ∧
    meets (snap 0x03 0 3 0 3 [1, 2, 3]) (fun S =>
      frameView params.bufCap 0 S = .ok [1, 2, 3] ∧ 3 ≤ sint S.opb) ∧
    meets (snap 0x03 0 0 0 3 [1, 2, 3]) (fun S =>
      frameView params.bufCap 0 S = .ok [1, 2, 3] ∧ 0 ≤ sint S.opb ∧ sint S.opb < 3) ∧
    meets (snap 0x03 0 2 0 3 [1, 2, 3]) (fun S =>
      frameView params.bufCap 0 S = .ok [1, 2, 3] ∧ 0 ≤ sint S.opb ∧ sint S.opb < 3) := by decide

theorem test_witness_NthbyteSelectsOneByte :
    meets (snap 0x03 0 63 0 64 []) (fun S =>
      uint S.ilen ≤ params.bufCap ∧ 0 ≤ sint S.opb ∧ sint S.opb < uint S.ilen) ∧
    meets (operands (.nthbyte 1) 0x010203 2 0) (fun S =>
      0 ≤ sint S.opa ∧ 0 ≤ sint S.opb ∧ sint S.opb < width (uint S.opa)) ∧
    meets (operands (.nthbyte 2) 0 0 0) (fun _ => True) := by decide

/-- Widths 0, 8 and 9; a frame view that fails; from = -1; to = L; and widths 7 and 8 that fit. -/
theorem test_witness_BytesfromtoFollowsItsRule :
    meets (snap 0x04 0 2 1 3 [1, 2, 3]) (fun S => sint S.opc - sint S.opb + 1 < 1) ∧
    meets (snap 0x04 0 0 7 3 [1, 2, 3]) (fun S => 7 < sint S.opc - sint S.opb + 1) ∧
    meets (snap 0x44 0 0 8 3 [1, 2, 3]) (fun S => 8 < sint S.opc - sint S.opb + 1) ∧
    meets (operands (.bytesfromto 1 false) (-1) 0 6) (fun S =>
      1 ≤ sint S.opc - sint S.opb + 1 ∧ sint S.opc - sint S.opb + 1 ≤ 7 ∧
      frameView params.bufCap 1 S = .error { kind := .negativeFrame, val := -1, bnd := 0 }) ∧
    meets (snap 0x04 0 (-1) 3 3 [1, 2, 3]) (fun S =>
      1 ≤ sint S.opc - sint S.opb + 1 ∧ sint S.opc - sint S.opb + 1 ≤ 7 ∧
      frameView params.bufCap 0 S = .ok [1, 2, 3] ∧ sint S.opb < 0) ∧
    meets (snap 0x44 0 0 3 3 [1, 2, 3]) (fun S =>
      1 ≤ sint S.opc - sint S.opb + 1 ∧ sint S.opc - sint S.opb + 1 ≤ 8 ∧
      frameView params.bufCap 0 S = .ok [1, 2, 3] ∧ 0 ≤ sint S.opb ∧ 3 ≤ sint S.opc) ∧
    meets (snap 0x04 0 2 2 3 [1, 2, 3]) (fun S =>
      1 ≤ sint S.opc - sint S.opb + 1 ∧ sint S.opc - sint S.opb + 1 ≤ 7 ∧
      frameView params.bufCap 0 S = .ok [1, 2, 3] ∧ 0 ≤ sint S.opb ∧ sint S.opc < 3) ∧
    meets (operands (.bytesfromto 1 true) 0x0102030405060708 0 7) (fun S =>
      1 ≤ sint S.opc - sint S.opb + 1 ∧ sint S.opc - sint S.opb + 1 ≤ 8 ∧
      frameView params.bufCap 1 S = .ok [1, 2, 3, 4, 5, 6, 7, 8] ∧ 0 ≤ sint S.opb ∧ sint S.opc < 8) := by
  decide

theorem test_witness_BytesfromtoFoldsTheRange :
    meets (snap 0x44 0 56 63 64 []) (fun S =>
      S.opb = BitVec.ofNat 64 56 ∧ S.opc = BitVec.ofNat 64 63 ∧ 63 < 2 ^ 63 ∧ 56 ≤ 63 ∧
      63 - 56 + 1 ≤ (if true = true then 8 else 7) ∧ uint S.ilen ≤ params.bufCap ∧ 63 < uint S.ilen) ∧
    meets (operands (.bytesfromto 1 false) 0x0102030405060708 1 7) (fun S =>
      S.opb = BitVec.ofNat 64 1 ∧ S.opc = BitVec.ofNat 64 7 ∧ 7 < 2 ^ 63 ∧ 1 ≤ 7 ∧
      7 - 1 + 1 ≤ (if false = true then 8 else 7) ∧ 0 ≤ sint S.opa ∧ 7 < width (uint S.opa)) := by decide

/-- Width 7 without force8Bytes and width 8 with it, in both frame forms. -/
theorem test_witness_RangeIsTheFoldOfItsBytes :
    params.wellFormed = true ∧
    frameView params.bufCap 0 (snap 0x04 0 0 0 3 [1, 2, 3]) = .ok [1, 2, 3] ∧ 2 - 0 + 1 ≤ 7 ∧
    frameView params.bufCap 1 (operands (.bytesfromto 1 true) 0x0102030405060708 0 0) =
      .ok [1, 2, 3, 4, 5, 6, 7, 8] ∧ 7 - 0 + 1 = 8 := by decide

theorem test_witness_BothFormsGiveTheSameOutcome :
    params.wellFormed = true ∧ 0x010203 < 2 ^ 63 ∧
    (operands (.nthbyte 1) 0x010203 2 2).opa = BitVec.ofNat 64 0x010203 ∧
    (snap 0x03 0 2 2 3 [1, 2, 3]).ilen = BitVec.ofNat 64 (width 0x010203) ∧
    (∀ i, i < width 0x010203 → ibufByte (snap 0x03 0 2 2 3 [1, 2, 3]).ibuf i = (be 0x010203).getD i 0) ∧
    (snap 0x03 0 2 2 3 [1, 2, 3]).opb = (operands (.nthbyte 1) 0x010203 2 2).opb ∧
    (snap 0x03 0 2 2 3 [1, 2, 3]).opc = (operands (.nthbyte 1) 0x010203 2 2).opc := by decide

/-- At the largest index whose range does not pass 2^63 - 1. -/
theorem test_witness_WidthsEightAndNineAtTheBoundary :
    meets (operands (.bytesfromto 0 false) 0 0x7FFFFFFFFFFFFFF8 0x7FFFFFFFFFFFFFFF) (fun S =>
      sint S.opb + 7 ≤ 2 ^ 63 - 1 ∧ S.opc = lo64 (sint S.opb + 7)) ∧
    meets (operands (.bytesfromto 0 true) 0 0x7FFFFFFFFFFFFFF7 0x7FFFFFFFFFFFFFFF) (fun S =>
      sint S.opb + 8 ≤ 2 ^ 63 - 1 ∧ S.opc = lo64 (sint S.opb + 8)) := by decide

theorem test_witness_IntegerFormResultsStayPositive :
    meets (operands (.nthbyte 1) 0x7FFFFFFFFFFFFFFF 0 0) (fun S =>
      0 ≤ sint S.opa ∧ width (uint S.opa) = 8 ∧ S.opb = 0) := by decide

theorem test_witness_SingleByteRangeIsNthbyte :
    (snap 0x04 0 1 1 3 [1, 2, 3]).opc = (snap 0x04 0 1 1 3 [1, 2, 3]).opb := by decide

/-! ### Witnesses: integer converter -/

/-- Sizes -1, BUF_CAP + 1, 0, the width 2, 3, and BUF_CAP. -/
theorem test_witness_InttostringGivesTheFittedBytes :
    meets (operands (.inttostring true) 0x0102 (-1) 0) (fun S => sint S.opb < 0) ∧
    meets (operands (.inttostring true) 0x0102 65 0) (fun S => (params.bufCap : Int) < sint S.opb) ∧
    meets (operands (.inttostring true) 0x0102 0 0) (fun S =>
      0 ≤ sint S.opb ∧ sint S.opb ≤ params.bufCap ∧ sint S.opb ≤ width (uint S.opa)) ∧
    meets (operands (.inttostring true) 0x0102 2 0) (fun S =>
      0 ≤ sint S.opb ∧ sint S.opb ≤ params.bufCap ∧ sint S.opb ≤ width (uint S.opa)) ∧
    meets (operands (.inttostring true) 0x0102 3 0) (fun S =>
      0 ≤ sint S.opb ∧ sint S.opb ≤ params.bufCap ∧ (width (uint S.opa) : Int) < sint S.opb) ∧
    meets (operands (.inttostring true) 0x0102 64 0) (fun S =>
      0 ≤ sint S.opb ∧ sint S.opb ≤ params.bufCap ∧ (width (uint S.opa) : Int) < sint S.opb) := by decide

theorem test_witness_StringtointFoldsTheInput :
    meets (snap 0x06 0 0 0 65 []) (fun S => params.bufCap < uint S.ilen) ∧
    meets (snap 0x06 0 0 0 9 []) (fun S => uint S.ilen ≤ params.bufCap ∧ 8 < uint S.ilen) ∧
    meets (snap 0x06 0 0 0 64 []) (fun S => uint S.ilen ≤ params.bufCap ∧ 8 < uint S.ilen) ∧
    meets (snap 0x06 0 0 0 8 []) (fun S => uint S.ilen ≤ params.bufCap ∧ uint S.ilen ≤ 8) ∧
    meets (snap 0x06 0 0 0 0 []) (fun S => uint S.ilen ≤ params.bufCap ∧ uint S.ilen ≤ 8) := by decide

/-- A second command whose input is the first one's output. -/
theorem test_witness_IntegerRoundTrip :
    params.wellFormed = true ∧
    after (operands (.inttostring false) 0x0102 0 0) = bytes [1, 2] ∧
    (snap 0x06 0 0 0 2 [1, 2]).ilen = 2 ∧
    (∀ i, i < 2 → ibufByte (snap 0x06 0 0 0 2 [1, 2]).ibuf i = ([1, 2] : List Byte).getD i 0) := by decide

theorem test_witness_SequenceRoundTrip :
    params.wellFormed = true ∧ uint (snap 0x06 0 0 0 3 [0, 0, 1]).ilen ≤ 8 ∧
    after (snap 0x06 0 0 0 3 [0, 0, 1]) = word 1 ∧ (operands (.inttostring true) 1 3 0).opa = 1 ∧
    (operands (.inttostring true) 1 3 0).opb = (snap 0x06 0 0 0 3 [0, 0, 1]).ilen := by decide

theorem test_witness_FittedWidthKeepsTheLowBytes :
    params.wellFormed = true ∧ 64 ≤ params.bufCap ∧
    (operands (.inttostring true) 0x0102 64 0).opb = BitVec.ofNat 64 64 ∧ 8 ≤ params.bufCap ∧
    (operands (.inttostring true) 0x0102 8 0).opb = BitVec.ofNat 64 8 := by decide

/-! ### Witnesses: issue, completion and frames -/

theorem test_witness_IssueLatchesEveryInput : idle.rst = false ∧ idle.busy = false := by decide

theorem test_witness_IssueWhileBusyIsIgnored : (issueAfter idle 1 2).busy = true := by decide

theorem test_witness_InputsWrittenWhileBusyMissTheSnapshot :
    (issueAfter idle 1 2).rst = false ∧
    (issueAfter idle 1 2).inFlight = some (flight (snap 1 0 0 0 0 []) 2) ∧
    63 < params.bufCap ∧ params.bufCap ≤ 4096 := by decide

/-- A command in flight with writes and a clock cycle waiting. -/
theorem test_witness_EveryIssuedCommandCompletes :
    (issueAfter idle 1 2).rst = false ∧
    (issueAfter idle 1 2).inFlight = some (flight (snap 1 0 0 0 0 []) 2) ∧
    ∀ e ∈ ({ issueAfter idle 1 2 with events := [.write 0x10000 8 2, .rst false, .clock] } : State).events,
      e ≠ .rst true := by decide

theorem test_witness_ReportDependsOnSnapshotAlone :
    idle.rst = false ∧ (wordReport idle 5).rst = false ∧ idle.params = (wordReport idle 5).params := by
  decide

/-- For each command, two snapshots that agree on what it reads and not on the rest. -/
theorem test_witness_UnreadOperandsDoNotMatter :
    ReadsSame .nthbit (operands .nthbit 1 2 3) (snap 1 1 2 4 5 [6]) ∧
    ReadsSame .partofbyte (operands .partofbyte 1 2 3) (snap 2 1 2 4 5 [6]) ∧
    ReadsSame (.nthbyte 0) (snap 3 0 1 0 2 [7, 8]) (snap 3 9 1 9 2 [7, 8, 9]) ∧
    ReadsSame (.nthbyte 1) (snap 3 5 1 0 2 [7]) (snap 3 5 1 9 3 []) ∧
    ReadsSame (.nthbyte 2) (snap 3 5 1 0 2 [7]) (snap 3 6 1 9 3 []) ∧
    ReadsSame (.bytesfromto 0 true) (snap 4 0 0 1 2 [7, 8]) (snap 4 9 0 1 2 [7, 8, 9]) ∧
    ReadsSame (.bytesfromto 1 false) (snap 4 5 0 1 2 [7]) (snap 4 5 0 1 3 []) ∧
    ReadsSame (.inttostring false) (operands (.inttostring false) 1 2 3) (snap 5 1 4 4 5 [6]) ∧
    ReadsSame (.inttostring true) (operands (.inttostring true) 1 2 3) (snap 5 1 2 4 5 [6]) ∧
    ReadsSame .stringtoint (snap 6 0 0 0 2 [7, 8]) (snap 6 1 1 1 2 [7, 8, 9]) := by
  refine ⟨?_, ?_, ?_, ?_, ?_, ?_, ?_, ?_, ?_, ⟨by decide, by decide⟩⟩
  · exact ⟨rfl, rfl⟩
  · exact ⟨rfl, rfl⟩
  · exact ⟨rfl, fun _ => ⟨by decide, by decide⟩, fun h => absurd h (by decide)⟩
  · exact ⟨rfl, fun h => absurd h (by decide), fun _ => rfl⟩
  · exact ⟨rfl, fun h => absurd h (by decide), fun h => absurd h (by decide)⟩
  · exact ⟨rfl, rfl, fun _ => ⟨by decide, by decide⟩, fun h => absurd h (by decide)⟩
  · exact ⟨rfl, rfl, fun h => absurd h (by decide), fun _ => rfl⟩
  · exact ⟨rfl, fun h => absurd h (by decide)⟩
  · exact ⟨rfl, fun _ => rfl⟩

theorem test_witness_WordCommandsStoreNothing :
    (issued idle (snap 0x44 0 0 7 8 [])).inFlight = some (flight (snap 0x44 0 0 7 8 []) 0) := by decide

theorem test_witness_InttostringStoresOnlyItsOutput :
    (issued idle (operands (.inttostring true) 0x0102 4 0)).inFlight =
      some (flight (operands (.inttostring true) 0x0102 4 0) 0) ∧
    report (exec (.inttostring true) (issued idle (operands (.inttostring true) 0x0102 4 0))) =
      bytes [0, 0, 1, 2] := by decide

theorem test_witness_OutputsChangeOnlyAtCompletionOrReset :
    completionDue (issueAfter idle 1 2) = none ∧ (issueAfter idle 1 2).events = [] := by decide

/-! ### Witnesses: the register window -/

theorem test_witness_StatusHasItsFields : (errorReport idle .illegalRequest 0 0).rst = false := by decide

theorem test_witness_OperandRegistersReadBack : idle.rst = false ∧ RegName.opb ≠ RegName.opa := by decide

theorem test_witness_CmdReadsTheLastAcceptedWrite :
    idle.rst = false ∧ idle.busy = false ∧ (issueAfter idle 1 2).rst = false ∧
    (issueAfter idle 1 2).busy = true := by decide

theorem test_witness_IdAndCapAreConstant : idle.rst = false ∧ params.wellFormed = true := by decide

theorem test_witness_IbufBytesReadBack :
    idle.rst = false ∧ params.wellFormed = true ∧ 63 < params.bufCap ∧ 0 < params.bufCap ∧ 0 ≠ 63 := by decide

theorem test_witness_ObufShowsTheLastOutput :
    idle.rst = false ∧ params.wellFormed = true ∧
    report (exec (.inttostring true) (issued idle (operands (.inttostring true) 0x0102 4 0))) =
      bytes [0, 0, 1, 2] ∧
    inttostringResult params.bufCap true (operands (.inttostring true) 0x0102 4 0) = okBytes [0, 0, 1, 2] := by
  decide

/-- The last register with a wrong size, a misaligned offset, and both ends of the buffers. -/
theorem test_witness_UnsupportedAccessesDoNothing :
    (0xFF8 < 0x1000 ∧ 4 ≠ 8) ∧ (0xFFF < 0x1000 ∧ 0xFFF % 8 ≠ 0) ∧
    (0x1000 ≤ 0x1000 ∧ 0x2FFF < 0x3000 ∧ 8 ≠ 1) := by decide

theorem test_witness_ReservedOffsetsReadZero :
    (0x060 ≤ 0x060 ∧ 0xFFF < 0x1000) ∧ (0x1000 + idle.params.bufCap ≤ 0x1040 ∧ 0x1FFF < 0x2000) ∧
    (0x2000 + idle.params.bufCap ≤ 0x2040 ∧ 0x2FFF < 0x3000) := by decide

/-- Both ends of the window, and the addresses on either side of it. -/
theorem test_witness_ReadsHaveNoSideEffect :
    (0 < 0x3000 ∧ 0x2FFF < 0x3000) ∧ 0xFFFF < idle.params.wbcBase ∧
    idle.params.wbcBase + 0x3000 ≤ 0x13000 := by decide

/-! ### Witnesses: reset, invariants and the layers -/

theorem reset_values : HasResetValues idle :=
  ⟨rfl, rfl, rfl, rfl, rfl, rfl, rfl, rfl, rfl, rfl, rfl, rfl, rfl⟩

theorem test_witness_ResetInputHoldsTheBlock : (driveRst idle true).rst = true := by decide

theorem test_witness_ResetLeavesItsValues :
    (driveRst (issueAfter idle 1 2) true).rst = true ∧ HasResetValues idle ∧ 0x2000 ≤ 0x2000 ∧
    idle.params.wellFormed = true :=
  ⟨by decide, reset_values, by decide, by decide⟩

theorem test_witness_ResetAbandonsTheCommand :
    (issueAfter idle 1 2).inFlight = some (flight (snap 1 0 0 0 0 []) 2) := by decide

/-- The first CMD write after the operands and a byte of IBUF were written, with a write to CMD of an
unsupported size and a cycle before it; and with nothing before it. -/
theorem test_witness_FirstWriteAfterResetIssues :
    HasResetValues idle ∧
    (∀ e ∈ ([.write 0x10008 8 5, .write 0x11000 1 7, .write 0x10000 4 1, .read 0x10028 8, .clock,
        .rst false] : List Event),
      e ≠ .rst true ∧ ∀ w, e ≠ .write idle.params.wbcBase 8 w) ∧
    (∀ e ∈ ([] : List Event), e ≠ .rst true ∧ ∀ w, e ≠ .write idle.params.wbcBase 8 w) :=
  ⟨reset_values, by simp [idle, params, State.resetWith], by simp⟩

theorem idle_inv : Inv idle where
  params := by decide
  ibuf := ⟨List.Pairwise.nil, by decide⟩
  obuf := ⟨List.Pairwise.nil, by decide⟩
  olenInside := by decide
  outputStored := fun i h => absurd h (Nat.not_lt_zero i)
  errIffEcode := by decide
  ecodeKnown := by decide
  failedOutputs := by decide
  succeededContext := by decide
  beforeFirst := by decide
  oneOutput := by decide
  rstIdle := by decide
  flight := fun c h => by cases h

/-- The invariant, and a step that is a completion. -/
theorem test_witness_InvariantIsKept :
    Inv idle ∧ step idle = .next idle ∧
    after (operands .nthbit 0x80 1 0) = word 1 := ⟨idle_inv, rfl, by decide⟩

theorem test_witness_InvariantHoldsAtReset : params.wellFormed = true := by decide

theorem test_witness_BlocksShareNothing :
    ({ blocks := [idle, idle] } : Platform).blocks.length = 2 ∧ 1 ≠ 0 := by decide

/-- A host that waits, with the block busy and not. -/
theorem test_witness_WaitStaysWhileBusy :
    let host : HostAgent := { program := [.wait], pos := 0, vars := Vector.replicate 8 0 }
    host.program[host.pos]? = some .wait ∧ idle.rst = false ∧ idle.busy = false ∧
    (issueAfter idle 1 2).rst = false ∧ (issueAfter idle 1 2).busy = true := by decide

end Sys2Proof.Machine.Tests
end

/-! ## The family `10_state.md`: proofs

First the rules about the state's operations that the obligations share, then the obligations, the
invariant before the rest. -/

namespace Sys2Proof.Machine

/-! ### Parameters, reset, the clock and RST -/

theorem wellFormed_iff (p : Params) :
    p.wellFormed = true ↔ 8 ≤ p.bufCap ∧ p.bufCap ≤ 4096 ∧ 1 ≤ p.nInst := by
  simp [Params.wellFormed, and_assoc]

/-- The parameters of `State.reset` are legal, whatever the free constants are (00_scope.md R7). -/
theorem configParams_wellFormed : Config.params.wellFormed = true := by
  have hcap := Config.bufCapAboveEight.isLt
  rw [wellFormed_iff]
  simp only [Config.params]
  omega

/-- A block right after a reset: the values of 10_state.md R48, whatever the fields that are the model's
own hold. `resetWith_eq_freshBlock` and `driveRst_release` say which states these are. -/
def freshBlock (p : Params) (ibufDraw obufDraw : Nat) (es : List Event) (rs : List Reply) (draws : Nat) :
    State :=
  { State.resetWith p with
    ibuf := { written := [], draw := ibufDraw }, obuf := { written := [], draw := obufDraw }
    events := es, replies := rs, draws := draws }

theorem resetWith_eq_freshBlock (p : Params) : State.resetWith p = freshBlock p 0 0 [] [] 0 := rfl

theorem driveRst_release (s : State) (h : s.rst = true) :
    driveRst s false =
      freshBlock s.params (s.ibuf.draw + 1) (s.obuf.draw + 1) s.events s.replies s.draws := by
  simp [driveRst, h, resetRegisters, freshBlock, State.resetWith]

/-- Releasing an RST that is not asserted does nothing (log entry 9). -/
theorem driveRst_release_of_low (s : State) (h : s.rst = false) : driveRst s false = s := by
  simp [driveRst, h]

theorem clockTick_idle (s : State) (h : s.inFlight = none) : clockTick s = s := by simp [clockTick, h]

theorem clockTick_inFlight (s : State) (c : InFlight) (h : s.inFlight = some c) :
    clockTick s = { s with inFlight := some { c with remaining := c.remaining - 1 } } := by
  simp [clockTick, h]

/-! ### The shape of a command's result -/

/-- Only INTTOSTRING gives bytes (10_state.md R31, R32). -/
theorem commandResult_seq_nil (cap : Nat) (i : Instr) (S : Snapshot) (o : Output)
    (hi : ∀ sz, i ≠ .inttostring sz) (h : commandResult cap i S = .ok o) : o.seq = [] := by
  cases i with
  | inttostring sz => exact absurd rfl (hi sz)
  | nthbit => simp only [commandResult, nthbitResult, raise, okWord] at h; split_ifs at h <;> cases h <;> rfl
  | partofbyte =>
    simp only [commandResult, partofbyteResult, raise, okWord] at h
    split_ifs at h <;> cases h <;> rfl
  | nthbyte ft =>
    simp only [commandResult, nthbyteResult, byteAtIndex, raise, okWord] at h
    split at h
    · cases h
    · split_ifs at h; cases h; rfl
  | bytesfromto ft f8 =>
    simp only [commandResult, bytesfromtoResult, foldRange, raise, okWord] at h
    split at h
    · cases h
    · split at h
      · cases h
      · split_ifs at h; cases h; rfl
  | stringtoint =>
    simp only [commandResult, stringtointResult, raise, okWord] at h
    split at h
    · cases h
    · split_ifs at h; cases h; rfl

/-- R170: the fitted sequence has the size asked for. -/
theorem fitBytes_length (n : Nat) (N : List Byte) : (fitBytes n N).length = n := by
  unfold fitBytes
  split
  · rw [List.length_drop]; omega
  · rw [List.length_append, List.length_replicate]; omega

/-- INTTOSTRING fails, or gives bytes and no word, at most as many as a buffer holds (10_state.md R32,
42_integer_converter.md R170). -/
theorem inttostringResult_cases (cap : Nat) (sz : Bool) (S : Snapshot) :
    (∃ e, inttostringResult cap sz S = .error e) ∨
    ∃ seq, inttostringResult cap sz S = okBytes seq ∧ (8 ≤ cap → seq.length ≤ cap) := by
  have hw := width_le (integerOperand S)
  unfold inttostringResult
  split
  · split
    · exact .inl ⟨_, rfl⟩
    · refine .inr ⟨_, rfl, fun _ => ?_⟩
      rw [fitBytes_length]
      omega
  · refine .inr ⟨_, rfl, fun hcap => ?_⟩
    rw [be_length]
    omega

/-- With buffers of at least 8 bytes every output fits in OBUF, and bytes and a word never come
together. -/
theorem commandResult_output (cap : Nat) (i : Instr) (S : Snapshot) (o : Output) (hcap : 8 ≤ cap)
    (h : commandResult cap i S = .ok o) : o.seq.length ≤ cap ∧ (o.seq ≠ [] → o.res = 0) := by
  by_cases hi : ∀ sz, i ≠ .inttostring sz
  · have hnil := commandResult_seq_nil cap i S o hi h
    simp [hnil]
  · push Not at hi
    obtain ⟨sz, rfl⟩ := hi
    rcases inttostringResult_cases cap sz S with ⟨e, he⟩ | ⟨seq, hs, hle⟩
    · rw [commandResult, he] at h; cases h
    · rw [commandResult, hs] at h; cases h; exact ⟨hle hcap, fun _ => rfl⟩

/-- A result without bytes leaves the stored bytes of OBUF alone. -/
theorem complete_without_bytes (s : State) (r : Result) (h : ∀ o, r = .ok o → o.seq = []) :
    (complete s r).olen = 0 ∧ (complete s r).obuf = s.obuf := by
  cases r with
  | error e => exact ⟨rfl, rfl⟩
  | ok o => simp [complete, h o rfl, Buffer.storeAll, lo64]

/-! ### One step -/

/-- `Exec(S)` of any word: its command's pseudocode, or IllegalRequest (10_state.md R44, 30_encoding.md
R93). -/
def snapshotResult (bufCap : Nat) (S : Snapshot) : Result :=
  match decode S.cmd with
  | .ok i => commandResult bufCap i S
  | .error _ => illegalWord S

theorem completionDue_of_inFlight (s : State) (c : InFlight) (hr : s.rst = false)
    (hc : s.inFlight = some c) (h0 : c.remaining = 0) : completionDue s = some c.snap :=
  (completionDue_iff s c.snap).2 ⟨hr, c, hc, h0, rfl⟩

theorem completionDue_of_delayed (s : State) (c : InFlight) (hc : s.inFlight = some c)
    (h : c.remaining ≠ 0) : completionDue s = none := by
  cases hr : s.rst <;> simp [completionDue, hr, hc, h]

theorem step_of_decode (s : State) (c : InFlight) (i : Instr) (hr : s.rst = false)
    (hc : s.inFlight = some c) (h0 : c.remaining = 0) (hd : decode c.snap.cmd = .ok i) :
    step s = exec i s := by
  simp [step, completionDue_of_inFlight s c hr hc h0, hd]

/-- The step of a due completion. -/
theorem step_of_due (s : State) (c : InFlight) (hr : s.rst = false) (hc : s.inFlight = some c)
    (h0 : c.remaining = 0) : step s = .next (complete s (snapshotResult s.params.bufCap c.snap)) := by
  cases hd : decode c.snap.cmd with
  | ok i => rw [step_of_decode s c i hr hc h0 hd, exec_inFlight i s c hc, snapshotResult, hd]
  | error e =>
    simp [step, completionDue_of_inFlight s c hr hc h0, hd, completing_inFlight s _ c hc, snapshotResult]

theorem step_of_not_due (s : State) (h : completionDue s = none) : step s = .next (nextEvent s) := by
  simp [step, h]

theorem step_issued (s : State) (S : Snapshot) (hr : s.rst = false) :
    step (issued s S) = .next (complete (issued s S) (snapshotResult s.params.bufCap S)) :=
  step_of_due (issued s S) { snap := S, remaining := 0 } hr rfl rfl

/-- No snapshot gives more bytes than OLEN can count. -/
theorem snapshotResult_length (cap : Nat) (S : Snapshot) (o : Output) (h : snapshotResult cap S = .ok o) :
    o.seq.length < 2 ^ 64 := by
  cases hd : decode S.cmd with
  | ok i => rw [snapshotResult, hd] at h; exact commandResult_length cap i S o h
  | error e => rw [snapshotResult, hd] at h; cases h

/-! ### The invariant -/

theorem bufferOk_empty (cap draw : Nat) : BufferOk cap { written := [], draw := draw } :=
  ⟨List.Pairwise.nil, by simp⟩

theorem bufferOk_store (cap : Nat) (b : Buffer) (i : Nat) (v : Byte) (h : BufferOk cap b) (hi : i < cap) :
    BufferOk cap (b.store i v) :=
  ⟨store_sorted b i v h.sorted, store_inside cap b i v hi h.inside⟩

theorem bufferOk_storeAll (cap : Nat) (b : Buffer) (vs : List Byte) (h : BufferOk cap b)
    (hl : vs.length ≤ cap) : BufferOk cap (b.storeAll 0 vs) :=
  ⟨storeAll_sorted b 0 vs h.sorted, storeAll_inside cap b 0 vs (by omega) h.inside⟩

/-- R190: the codes are 1 to 8. -/
theorem errorCode_bounds (e : ErrorKind) : errorCode e ≠ 0 ∧ (errorCode e).toNat ≤ 8 := by
  cases e <;> decide

theorem inv_freshBlock (p : Params) (k l : Nat) (es : List Event) (rs : List Reply) (d : Nat)
    (h : p.wellFormed = true) : Inv (freshBlock p k l es rs d) where
  params := h
  ibuf := bufferOk_empty _ _
  obuf := bufferOk_empty _ _
  olenInside := Nat.zero_le _
  outputStored i hi := absurd hi (Nat.not_lt_zero i)
  errIffEcode := by simp [freshBlock, State.resetWith]
  ecodeKnown := Nat.zero_le _
  failedOutputs _ := ⟨rfl, rfl⟩
  succeededContext _ := ⟨rfl, rfl⟩
  beforeFirst _ := ⟨rfl, rfl, rfl⟩
  oneOutput _ := rfl
  rstIdle _ := rfl
  flight c hc := by cases hc

section
variable {s : State} (h : Inv s)
include h

/-- The invariant says nothing of the model's own fields. -/
theorem inv_events (es : List Event) : Inv { s with events := es } := { h with }

theorem inv_replies (rs : List Reply) : Inv { s with replies := rs } := { h with }

theorem inv_completeOk (o : Output) (hlen : o.seq.length ≤ s.params.bufCap)
    (hone : o.seq ≠ [] → o.res = 0) : Inv (completeOk s o) := by
  obtain ⟨-, hcap, -⟩ := (wellFormed_iff _).1 h.params
  have holen : uint (completeOk s o).olen = o.seq.length := by
    simp only [completeOk_olen, lo64_natCast, uint, BitVec.toNat_ofNat]
    omega
  exact {
    params := h.params
    ibuf := h.ibuf
    obuf := bufferOk_storeAll _ _ _ h.obuf hlen
    olenInside := holen ▸ hlen
    outputStored := fun i hi => read_storeAll_isSome s.obuf 0 o.seq i (.inl (by omega))
    errIffEcode := by simp
    ecodeKnown := by simp
    failedOutputs := by simp
    succeededContext := by simp
    beforeFirst := by simp
    oneOutput := fun hne => hone fun hnil => hne (by simp [hnil, lo64])
    rstIdle := by simp
    flight := by simp }

theorem inv_completeError (e : Raise) : Inv (completeError s e) where
  params := h.params
  ibuf := h.ibuf
  obuf := h.obuf
  olenInside := Nat.zero_le _
  outputStored i hi := absurd hi (Nat.not_lt_zero i)
  errIffEcode := by simpa using (errorCode_bounds e.kind).1
  ecodeKnown := (errorCode_bounds e.kind).2
  failedOutputs _ := ⟨rfl, rfl⟩
  succeededContext := by simp
  beforeFirst := by simp
  oneOutput _ := rfl
  rstIdle _ := rfl
  flight := by simp

theorem inv_complete_command (i : Instr) (S : Snapshot) :
    Inv (complete s (commandResult s.params.bufCap i S)) := by
  obtain ⟨hcap, -, -⟩ := (wellFormed_iff _).1 h.params
  cases hr : commandResult s.params.bufCap i S with
  | error e => exact inv_completeError h e
  | ok o =>
    obtain ⟨hlen, hone⟩ := commandResult_output _ i S o hcap hr
    exact inv_completeOk h o hlen hone

theorem inv_issue (hr : s.rst = false) (v : Word) : Inv (issue s v) :=
  { h with
    rstIdle := fun ht => by simp [hr] at ht
    flight := fun c hc => by
      cases hc
      exact ⟨rfl, latency_le _ _, h.ibuf, rfl⟩ }

theorem inv_writeCmd (hr : s.rst = false) (v : Word) : Inv (writeCmd s v) := by
  rcases writeCmd_cases s v with ⟨-, he⟩ | ⟨-, he⟩ <;> rw [he]
  · exact h
  · exact inv_issue h hr v

theorem inv_store_ibuf (i : Nat) (v : Byte) (hi : i < s.params.bufCap) :
    Inv { s with ibuf := s.ibuf.store i v } :=
  { h with ibuf := bufferOk_store _ _ _ _ h.ibuf hi }

theorem inv_memWrite (off n : Nat) (v : Word) : Inv (memWrite s off n v) := by
  rcases memWrite_cases s off n v with he | ⟨hr, he⟩ | he | he | he | he | ⟨i, hi, he⟩ <;> rw [he]
  · exact h
  · exact inv_writeCmd h hr v
  · exact { h with }
  · exact { h with }
  · exact { h with }
  · exact { h with }
  · exact inv_store_ibuf h i _ hi

theorem inv_clockTick : Inv (clockTick s) := by
  cases hc : s.inFlight with
  | none => rw [clockTick_idle s hc]; exact h
  | some c =>
    obtain ⟨hcmd, hlat, hbuf⟩ := h.flight c hc
    rw [clockTick_inFlight s c hc]
    exact { h with
      rstIdle := fun hr => by simp [h.rstIdle hr] at hc
      flight := fun d hd => by
        cases hd
        exact ⟨hcmd, (Nat.sub_le _ _).trans hlat, hbuf⟩ }

theorem inv_driveRst (asserted : Bool) : Inv (driveRst s asserted) := by
  cases asserted with
  | true => exact { h with rstIdle := fun _ => rfl, flight := fun c hc => by cases hc }
  | false =>
    cases hr : s.rst with
    | true => rw [driveRst_release s hr]; exact inv_freshBlock _ _ _ _ _ _ h.params
    | false => rw [driveRst_release_of_low s hr]; exact h

theorem inv_applyEvent (e : Event) : Inv (applyEvent s e) := by
  rcases applyEvent_cases s e with
    he | ⟨a, off, n, -, -, he⟩ | ⟨a, off, n, v, -, -, he⟩ | ⟨-, he⟩ | ⟨b, -, he⟩ <;> rw [he]
  · exact h
  · exact inv_replies h _
  · exact inv_replies (inv_memWrite h off n v) _
  · exact inv_clockTick h
  · exact inv_driveRst h b

theorem inv_nextEvent : Inv (nextEvent s) := by
  unfold nextEvent
  split
  · exact inv_applyEvent (inv_events h _) _
  · exact inv_clockTick h

end

theorem clockTick_params (s : State) : (clockTick s).params = s.params := by
  unfold clockTick; split <;> rfl

theorem driveRst_params (s : State) (b : Bool) : (driveRst s b).params = s.params := by
  unfold driveRst; split_ifs <;> rfl

theorem applyEvent_params (s : State) (e : Event) : (applyEvent s e).params = s.params := by
  rcases applyEvent_cases s e with
    he | ⟨a, off, n, -, -, he⟩ | ⟨a, off, n, v, -, -, he⟩ | ⟨-, he⟩ | ⟨b, -, he⟩ <;> rw [he]
  · rfl
  · obtain ⟨-, hp, -⟩ := memWrite_frame s off n v
    exact hp
  · exact clockTick_params s
  · exact driveRst_params s b

theorem nextEvent_params (s : State) : (nextEvent s).params = s.params := by
  unfold nextEvent
  split
  · exact applyEvent_params _ _
  · exact clockTick_params s

/-- Settles O57: a step is a completion or the next event, and each keeps the invariant. -/
theorem invariantIsKept : Obligations.InvariantIsKept := by
  intro s t h hstep
  rcases step_cases s t hstep with
    ⟨c, -, -, -, ⟨i, -, rfl⟩ | ⟨e, -, rfl⟩⟩ | ⟨-, rfl⟩
  · exact ⟨inv_complete_command h i c.snap, (complete_keepsInputs s _).params⟩
  · exact ⟨inv_completeError h _, (complete_keepsInputs s _).params⟩
  · exact ⟨inv_nextEvent h, nextEvent_params s⟩

/-- Settles O58: both reset states are a `freshBlock` with legal parameters. -/
theorem invariantHoldsAtReset : Obligations.InvariantHoldsAtReset :=
  ⟨fun p hp => inv_freshBlock p _ _ _ _ _ hp, inv_freshBlock _ _ _ _ _ _ configParams_wellFormed⟩

/-! ### The register window -/

theorem memWrite_of_rst (s : State) (off n : Nat) (v : Word) (h : s.rst = true) : memWrite s off n v = s := by
  simp [memWrite, h]

theorem memRead_ibuf (s : State) (i : Nat) (hr : s.rst = false) (hi : i < s.params.bufCap)
    (hcap : s.params.bufCap ≤ 4096) : memRead s (0x1000 + i) 1 = zext64 8 (ibufByte s.ibuf i) := by
  simp [memRead, hr, locate_ibuf _ i hi hcap, readLocation]

theorem memRead_obuf (s : State) (i : Nat) (hr : s.rst = false) (hi : i < s.params.bufCap)
    (hcap : s.params.bufCap ≤ 4096) : memRead s (0x2000 + i) 1 = zext64 8 (s.obufRead i) := by
  simp [memRead, hr, locate_obuf _ i hi hcap, readLocation]

theorem memWrite_ibuf (s : State) (i : Nat) (v : Word) (hr : s.rst = false) (hi : i < s.params.bufCap)
    (hcap : s.params.bufCap ≤ 4096) :
    memWrite s (0x1000 + i) 1 v = { s with ibuf := s.ibuf.store i (v.setWidth 8) } := by
  simp [memWrite, hr, locate_ibuf _ i hi hcap, writeLocation]

/-- The host cannot write OBUF (10_state.md R37). -/
theorem memWrite_obuf (s : State) (i : Nat) (v : Word) (hi : i < s.params.bufCap)
    (hcap : s.params.bufCap ≤ 4096) : memWrite s (0x2000 + i) 1 v = s := by
  simp [memWrite, locate_obuf _ i hi hcap, writeLocation]

theorem memWrite_cmd_idle (s : State) (v : Word) (hr : s.rst = false) (hb : s.busy = false) :
    memWrite s 0x000 8 v = issue s v := by
  rw [show memWrite s 0x000 8 v = writeCmd s v from memWrite_register s .cmd v hr]
  simp [writeCmd, hb]

theorem memWrite_cmd_busy (s : State) (v : Word) (hb : s.busy = true) : memWrite s 0x000 8 v = s := by
  cases hr : s.rst with
  | true => exact memWrite_of_rst s _ _ v hr
  | false =>
    rw [show memWrite s 0x000 8 v = writeCmd s v from memWrite_register s .cmd v hr]
    simp [writeCmd, hb]

/-- From 0x2000 on an access reaches OBUF, a reserved byte or nothing (20_memory.md R61). -/
theorem locate_from_obuf (cap off n : Nat) (h : 0x2000 ≤ off) :
    (∃ i, locate cap off n = some (.obuf i)) ∨ locate cap off n = some .reserved ∨
      locate cap off n = none := by
  unfold locate
  rw [if_neg (by omega), if_neg (by omega)]
  split_ifs <;> simp

/-- With OLEN 0 every host read of OBUF gives 0x00 (10_state.md R37, R50). -/
theorem memRead_from_obuf_of_olen_zero (s : State) (off n : Nat) (h : s.olen = 0) (hoff : 0x2000 ≤ off) :
    memRead s off n = 0 := by
  have hread : ∀ i, s.obufRead i = 0 := fun i => by simp [State.obufRead, h]
  unfold memRead
  rcases locate_from_obuf s.params.bufCap off n hoff with ⟨i, hl⟩ | hl | hl <;> rw [hl]
  · simp [readLocation, hread, zext64]
  · simp [readLocation]
  · simp

theorem capValue_toNat (p : Params) (h : p.bufCap ≤ 4096) : uint (capValue p) = p.bufCap := by
  simp only [uint, capValue, zext64, BitVec.toNat_setWidth, BitVec.toNat_ofNat]
  omega

/-- CAP[63:16] = 0 (10_state.md R34). -/
theorem capValue_upper (p : Params) : (capValue p).extractLsb' 16 48 = 0 := by
  apply BitVec.eq_of_toNat_eq
  simp only [capValue, zext64, BitVec.extractLsb'_toNat, BitVec.toNat_setWidth, BitVec.toNat_ofNat,
    Nat.shiftRight_eq_div_pow, BitVec.ofNat_eq_ofNat]
  omega

/-- CAP as the host reads it, in a block with legal parameters. -/
theorem memRead_cap (s : State) (hr : s.rst = false) (h : s.params.wellFormed = true) :
    uint (memRead s 0x058 8) = s.params.bufCap := by
  obtain ⟨-, hcap, -⟩ := (wellFormed_iff _).1 h
  rw [show memRead s 0x058 8 = capValue s.params from memRead_register s .cap hr, capValue_toNat _ hcap]

/-- ID as the host reads it (10_state.md R33). -/
theorem memRead_id (s : State) (hr : s.rst = false) : memRead s 0x050 8 = 0x5742430000000001 :=
  memRead_register s .id hr

/-- The sum in `statusWord`, bit by bit: the three flags lie below bit 8, and 256 times ECODE above. -/
theorem testBit_status (b e v : Bool) (k : BitVec 4) (i : Nat) :
    (b.toNat + 2 * e.toNat + 4 * v.toNat + 256 * k.toNat).testBit i =
      if i = 0 then b else if i = 1 then e else if i = 2 then v
      else if 8 ≤ i ∧ i < 12 then k.getLsbD (i - 8) else false := by
  have hlow : b.toNat + 2 * e.toNat + 4 * v.toNat < 2 ^ 8 := by
    cases b <;> cases e <;> cases v <;> decide
  rw [Nat.add_comm, show 256 = 2 ^ 8 from rfl, Nat.testBit_two_pow_mul_add _ hlow]
  by_cases hi : i < 8
  · rw [if_pos hi]
    have hbits : ∀ (b e v : Bool) (i : Fin 8), (b.toNat + 2 * e.toNat + 4 * v.toNat).testBit i =
        if i.val = 0 then b else if i.val = 1 then e else if i.val = 2 then v else false := by decide
    rw [hbits b e v ⟨i, hi⟩, if_neg (c := 8 ≤ i ∧ i < 12) (by omega)]
  · rw [if_neg hi, if_neg (by omega), if_neg (by omega), if_neg (by omega)]
    by_cases h12 : i < 12
    · rw [if_pos (by omega), BitVec.getLsbD]
    · rw [if_neg (by omega), ← BitVec.getLsbD, BitVec.getLsbD_of_ge _ _ (by omega)]

theorem statusWord_getLsbD (s : State) (i : Nat) :
    (statusWord s).getLsbD i =
      if i = 0 then s.busy else if i = 1 then s.err else if i = 2 then s.valid
      else if 8 ≤ i ∧ i < 12 then s.ecode.getLsbD (i - 8) else false := by
  rw [statusWord, BitVec.getLsbD_ofNat, testBit_status]
  by_cases hi : i < 64
  · simp [hi]
  · rw [if_neg (by omega), if_neg (by omega), if_neg (by omega), if_neg (by omega), Bool.and_false]

/-- A write to an operand register is seen in that register and in no other (10_state.md R23 to R26). -/
theorem readRegister_writeRegister (s : State) (r q : RegName) (v : Word)
    (hr : r = .opa ∨ r = .opb ∨ r = .opc ∨ r = .ilen) :
    readRegister (writeRegister s r v) q = if q = r then v else readRegister s q := by
  rcases hr with rfl | rfl | rfl | rfl <;> cases q <;> rfl

/-- Settles O43: each register through `readRegister`, STATUS through its bits. -/
theorem statusHasItsFields : Obligations.StatusHasItsFields := by
  intro s hr
  refine ⟨fun i => ?_, memRead_register s .cmd hr, memRead_register s .opa hr, memRead_register s .opb hr,
    memRead_register s .opc hr, memRead_register s .ilen hr, memRead_register s .res hr,
    memRead_register s .olen hr, memRead_register s .errval hr, memRead_register s .errbnd hr,
    fun v => ⟨memWrite_register s .status v hr, memWrite_register s .res v hr,
      memWrite_register s .olen v hr, memWrite_register s .errval v hr, memWrite_register s .errbnd v hr⟩⟩
  rw [show memRead s 0x028 8 = statusWord s from memRead_register s .status hr]
  exact statusWord_getLsbD s i

/-- Settles O44: the write is seen in its own register and in no other. -/
theorem operandRegistersReadBack : Obligations.OperandRegistersReadBack := by
  intro s r v hr hop
  have hrst : (memWrite s r.offset 8 v).rst = false := by
    obtain ⟨-, -, hrst, -⟩ := memWrite_frame s r.offset 8 v
    rw [hrst, hr]
  have hread : ∀ q : RegName, memRead (memWrite s r.offset 8 v) q.offset 8 =
      if q = r then v else readRegister s q := fun q => by
    rw [memRead_register _ q hrst, memWrite_register s r v hr, readRegister_writeRegister s r q v hop]
  exact ⟨by rw [hread, if_pos rfl], fun q hq => by rw [hread, if_neg hq, memRead_register s q hr]⟩

/-- Settles O45: a CMD write issues, or is lost. -/
theorem cmdReadsTheLastAcceptedWrite : Obligations.CmdReadsTheLastAcceptedWrite := by
  intro s v hr
  refine ⟨fun hb => ?_, fun hb => by rw [memWrite_cmd_busy s v hb]⟩
  rw [memWrite_cmd_idle s v hr hb]
  exact memRead_register (issue s v) .cmd hr

/-- Settles O46: no write reaches ID or CAP, and a reset keeps the parameters. -/
theorem idAndCapAreConstant : Obligations.IdAndCapAreConstant := by
  intro s hr
  refine ⟨memRead_id s hr, memRead_id (resetRegisters s) hr,
    fun hp => ⟨memRead_cap s hr hp, memRead_cap (resetRegisters s) hr hp⟩, ?_,
    fun v => ⟨memWrite_register s .id v hr, memWrite_register s .cap v hr⟩⟩
  rw [show memRead s 0x058 8 = capValue s.params from memRead_register s .cap hr]
  exact capValue_upper s.params

/-- Settles O47: the write is a store in IBUF and nothing else. -/
theorem ibufBytesReadBack : Obligations.IbufBytesReadBack := by
  intro s i v hr hp hi
  obtain ⟨-, hcap, -⟩ := (wellFormed_iff _).1 hp
  obtain ⟨-, hpar, hrst, -⟩ := memWrite_frame s (0x1000 + i) 1 v
  have hw := memWrite_ibuf s i v hr hi hcap
  generalize memWrite s (0x1000 + i) 1 v = t at hpar hrst hw
  rw [hr] at hrst
  have hlt : ∀ j, j < s.params.bufCap → j < t.params.bufCap := fun j hj => by rwa [hpar]
  have hcapt : t.params.bufCap ≤ 4096 := by rwa [hpar]
  refine ⟨?_, fun j hj hne => ?_, fun j hj => ?_, fun q => ?_⟩
  · rw [memRead_ibuf t i hrst (hlt i hi) hcapt, hw, ibufByte_store, if_pos rfl, zext64_byte,
      BitVec.toNat_setWidth]
  · rw [memRead_ibuf t j hrst (hlt j hj) hcapt, memRead_ibuf s j hr hj hcap, hw, ibufByte_store, if_neg hne]
  · rw [memRead_obuf t j hrst (hlt j hj) hcapt, memRead_obuf s j hr hj hcap, hw]
    rfl
  · rw [memRead_register t q hrst, memRead_register s q hr, hw]
    cases q <;> rfl

/-- Settles O48: the bytes shown are those of the completion's `BytesReport`. -/
theorem obufShowsTheLastOutput : Obligations.ObufShowsTheLastOutput := by
  intro s S sz t out hr hp hexec hout
  obtain ⟨-, hcap, -⟩ := (wellFormed_iff _).1 hp
  have hlen := commandResult_length _ (.inttostring sz) S _ hout
  have ht : t = complete (issued s S) (okBytes out) := by
    rw [exec_issued, commandResult, hout] at hexec
    exact (Host.Outcome.next.inj hexec).symm
  have hrep := complete_okBytes (issued s S) out hlen
  have hkeep := complete_keepsInputs (issued s S) (okBytes out)
  rw [← ht] at hrep hkeep
  have hrst : t.rst = false := hkeep.rst.trans hr
  have hpar : t.params = s.params := hkeep.params
  rw [← hpar] at hcap ⊢
  refine ⟨?_, fun i hi => ?_, fun i v hi => memWrite_obuf t i v hi hcap⟩
  · rw [show memRead t 0x038 8 = t.olen from memRead_register t .olen hrst, hrep.registers]
  · rw [memRead_obuf t i hrst hi hcap, hrep.shown, zext64_byte]

/-! ### Reset values -/

theorem freshBlock_hasResetValues (p : Params) (k l : Nat) (es : List Event) (rs : List Reply) (d : Nat) :
    HasResetValues (freshBlock p k l es rs d) :=
  ⟨rfl, rfl, rfl, rfl, rfl, rfl, rfl, rfl, rfl, rfl, rfl, rfl, rfl⟩

/-- Settles O53: each of these states is a `freshBlock`, and OLEN 0 hides every byte of OBUF. -/
theorem resetLeavesItsValues : Obligations.ResetLeavesItsValues := by
  refine ⟨fun s hr => ?_, fun p => freshBlock_hasResetValues p _ _ _ _ _,
    freshBlock_hasResetValues _ _ _ _ _ _, fun t ht => ⟨fun off n hoff => ?_, memRead_id t ht.rst,
      fun hp => memRead_cap t ht.rst hp⟩⟩
  · rw [driveRst_release s hr]; exact freshBlock_hasResetValues _ _ _ _ _ _
  · exact memRead_from_obuf_of_olen_zero t off n ht.olen hoff

/-! ### Issue -/

/-- Settles O34: the command in flight is the snapshot with the latency drawn. -/
theorem issueLatchesEveryInput : Obligations.IssueLatchesEveryInput := by
  intro s v hr hb
  rw [memWrite_cmd_idle s v hr hb]
  exact ⟨{ snap := takeSnapshot s v, remaining := latency s.params s.draws }, rfl, rfl, rfl, rfl, rfl, rfl,
    rfl, fun _ => rfl, latency_le _ _⟩

/-- Settles O35: the write is lost, with RST asserted too. -/
theorem issueWhileBusyIsIgnored : Obligations.IssueWhileBusyIsIgnored := memWrite_cmd_busy

/-- Settles O36: a write reaches its register or byte, and none reaches a command in flight. -/
theorem inputsWrittenWhileBusyMissTheSnapshot : Obligations.InputsWrittenWhileBusyMissTheSnapshot := by
  intro s c v hr hc
  have hwrite := fun r => memWrite_register s r v hr
  refine ⟨fun off n => ?_, congrArg State.opa (hwrite .opa), congrArg State.opb (hwrite .opb),
    congrArg State.opc (hwrite .opc), congrArg State.ilen (hwrite .ilen), fun i hi hcap => ?_⟩
  · rw [memWrite_inFlight s off n v (by simp [hc]), hc]
  · rw [memWrite_ibuf s i v hr hi hcap, ibufByte_store, if_pos rfl]

/-! ### From issue to completion -/

theorem memWrite_cmd_of_inFlight (s : State) (off n : Nat) (v : Word) (h : s.inFlight.isSome = true) :
    (memWrite s off n v).cmd = s.cmd := by
  rcases memWrite_cases s off n v with he | ⟨-, he⟩ | he | he | he | he | ⟨i, -, he⟩
  case inr.inl =>
    have hbusy : writeCmd s v = s := by simp [writeCmd, busy_eq, h]
    rw [he, hbusy]
  all_goals rw [he]

/-- `t` still runs the command `c` of `s` for the same machine, with no longer a delay. -/
structure StillRuns (s : State) (c : InFlight) (t : State) : Prop where
  rst : t.rst = false
  cmd : t.cmd = s.cmd
  params : t.params = s.params
  flight : ∃ d, t.inFlight = some d ∧ d.snap = c.snap ∧ d.remaining ≤ c.remaining

section
variable {s : State} {c : InFlight} (hr : s.rst = false) (hc : s.inFlight = some c)
include hr hc

theorem stillRuns_self : StillRuns s c s := ⟨hr, rfl, rfl, c, hc, rfl, le_rfl⟩

theorem memWrite_stillRuns (off n : Nat) (v : Word) : StillRuns s c (memWrite s off n v) := by
  have hbusy : s.inFlight.isSome = true := by simp [hc]
  obtain ⟨-, hparams, hrst, -⟩ := memWrite_frame s off n v
  exact ⟨hrst.trans hr, memWrite_cmd_of_inFlight s off n v hbusy, hparams, c,
    (memWrite_inFlight s off n v hbusy).trans hc, rfl, le_rfl⟩

theorem clockTick_stillRuns : StillRuns s c (clockTick s) := by
  rw [clockTick_inFlight s c hc]
  exact ⟨hr, rfl, rfl, _, rfl, rfl, Nat.sub_le _ _⟩

/-- Only asserting RST takes the command in flight away (10_state.md R46, 70_reset_and_hazards.md
R222). -/
theorem applyEvent_stillRuns (e : Event) (he : e ≠ .rst true) : StillRuns s c (applyEvent s e) := by
  rcases applyEvent_cases s e with
    h | ⟨a, off, n, -, -, h⟩ | ⟨a, off, n, v, -, -, h⟩ | ⟨-, h⟩ | ⟨b, hb, h⟩ <;> rw [h]
  · exact stillRuns_self hr hc
  · exact { stillRuns_self hr hc with }
  · exact { memWrite_stillRuns hr hc off n v with }
  · exact clockTick_stillRuns hr hc
  · cases b with
    | true => exact absurd hb he
    | false => rw [driveRst_release_of_low s hr]; exact stillRuns_self hr hc

end

theorem clockTick_events (s : State) : (clockTick s).events = s.events := by
  unfold clockTick; split <;> rfl

theorem applyEvent_events (s : State) (e : Event) : (applyEvent s e).events = s.events := by
  rcases applyEvent_cases s e with
    h | ⟨a, off, n, -, -, h⟩ | ⟨a, off, n, v, -, -, h⟩ | ⟨-, h⟩ | ⟨b, -, h⟩ <;> rw [h]
  · rfl
  · obtain ⟨-, -, -, hev⟩ := memWrite_frame s off n v
    exact hev
  · exact clockTick_events s
  · unfold driveRst; split_ifs <;> rfl

/-- While the delay is not over a step brings the completion nearer: it takes an event away, or a cycle
of the delay. -/
theorem nextEvent_stillRuns (s : State) (c : InFlight) (hr : s.rst = false) (hc : s.inFlight = some c)
    (h0 : c.remaining ≠ 0) (he : ∀ e ∈ s.events, e ≠ .rst true) :
    (nextEvent s).rst = false ∧ (nextEvent s).cmd = s.cmd ∧ (nextEvent s).params = s.params ∧
      (∀ e ∈ (nextEvent s).events, e ≠ .rst true) ∧
      ∃ d, (nextEvent s).inFlight = some d ∧ d.snap = c.snap ∧
        (nextEvent s).events.length + d.remaining < s.events.length + c.remaining := by
  cases hev : s.events with
  | nil =>
    have hnext : nextEvent s = clockTick s := by simp [nextEvent, hev]
    rw [hnext, clockTick_inFlight s c hc]
    refine ⟨hr, rfl, rfl, by simp [hev], _, rfl, rfl, ?_⟩
    simp only [hev]
    omega
  | cons e rest =>
    have hnext : nextEvent s = applyEvent { s with events := rest } e := by simp [nextEvent, hev]
    rw [hev] at he
    obtain ⟨hrst, hcmd, hparams, d, hd, hsnap, hle⟩ :=
      applyEvent_stillRuns (s := { s with events := rest }) hr hc e (he e (by simp))
    rw [hnext, applyEvent_events]
    refine ⟨hrst, hcmd, hparams, fun x hx => he x (by simp [hx]), d, hd, hsnap, ?_⟩
    simp only [List.length_cons]
    omega

theorem run_succ (s t : State) (n : Nat) (h : step s = .next t) :
    Host.Core.run Sys2Proof.core (n + 1) s = Host.Core.run Sys2Proof.core n t := by
  have hs : Sys2Proof.core.step s = .next t := h
  simp [Host.Core.run, hs]

/-- Within `n + 1` steps, where `n` bounds the events and the cycles left, the command in flight
completes with the result of its snapshot. -/
theorem run_completes (n : Nat) (s : State) (c : InFlight) (hr : s.rst = false) (hc : s.inFlight = some c)
    (he : ∀ e ∈ s.events, e ≠ .rst true) (hn : s.events.length + c.remaining ≤ n) :
    ∃ k r, k ≤ n + 1 ∧ r.cmd = s.cmd ∧
      Host.Core.run Sys2Proof.core k s = .next (complete r (snapshotResult s.params.bufCap c.snap)) := by
  induction n generalizing s c with
  | zero =>
    exact ⟨1, s, le_rfl, rfl, run_succ s _ 0 (step_of_due s c hr hc (by omega))⟩
  | succ n ih =>
    by_cases h0 : c.remaining = 0
    · exact ⟨1, s, by omega, rfl, run_succ s _ 0 (step_of_due s c hr hc h0)⟩
    · obtain ⟨hrst, hcmd, hparams, hev, d, hd, hsnap, hlt⟩ := nextEvent_stillRuns s c hr hc h0 he
      obtain ⟨k, r, hk, hrcmd, hrun⟩ := ih (nextEvent s) d hrst hd hev (by omega)
      refine ⟨k + 1, r, by omega, hrcmd.trans hcmd, ?_⟩
      rw [run_succ s _ k (step_of_not_due s (completionDue_of_delayed s c hc h0)), hrun, hparams, hsnap]

/-- Settles O37, by induction on the events and cycles left. -/
theorem everyIssuedCommandCompletes : Obligations.EveryIssuedCommandCompletes := by
  intro s c hr hc he
  obtain ⟨k, r, hk, hcmd, hrun⟩ := run_completes _ s c hr hc he le_rfl
  exact ⟨k, _, _, hk, hrun, complete_inFlight _ _, complete_valid _ _,
    (complete_keepsInputs r _).cmd.trans hcmd, step_issued s c.snap hr,
    complete_sameReport _ _ _ fun o ho => snapshotResult_length _ _ o ho⟩

/-- Settles O38: both steps complete with the one result of the snapshot. -/
theorem reportDependsOnSnapshotAlone : Obligations.ReportDependsOnSnapshotAlone := by
  intro s u S hs hu hp
  refine ⟨_, _, step_issued s S hs, step_issued u S hu, ?_⟩
  rw [hp]
  exact complete_sameReport _ _ _ fun o ho => snapshotResult_length _ _ o ho

/-- Settles O6: the completion is due, and the word decodes. -/
theorem stepRunsTheDecodedCommand : Obligations.StepRunsTheDecodedCommand := step_of_decode

/-! ### What a command and what an event leave unchanged -/

/-- Settles O40: a word command's result has no bytes to store. -/
theorem wordCommandsStoreNothing : Obligations.WordCommandsStoreNothing := by
  intro s c i hc hi
  have hword : ∀ sz, i ≠ .inttostring sz := by
    rcases hi with rfl | rfl | ⟨ft, rfl⟩ | ⟨ft, f8, rfl⟩ | rfl <;> simp
  obtain ⟨holen, hobuf⟩ := complete_without_bytes s (commandResult s.params.bufCap i c.snap)
    fun o ho => commandResult_seq_nil _ i _ o hword ho
  exact ⟨_, exec_inFlight i s c hc, complete_keepsInputs s _, holen, by rw [hobuf], fun j => by rw [hobuf]⟩

/-- Settles O41: an error stores nothing, and bytes are stored below OLEN. -/
theorem inttostringStoresOnlyItsOutput : Obligations.InttostringStoresOnlyItsOutput := by
  intro s c sz hc
  refine ⟨_, exec_inFlight _ s c hc, complete_keepsInputs s _, ?_⟩
  rw [commandResult]
  rcases inttostringResult_cases s.params.bufCap sz c.snap with ⟨e, he⟩ | ⟨seq, hseq, -⟩
  · rw [he]; exact ⟨rfl, rfl, fun _ _ => rfl⟩
  · have hlen := commandResult_length _ (.inttostring sz) c.snap _ hseq
    have hrep := complete_okBytes s seq hlen
    have holen : uint (complete s (okBytes seq)).olen = seq.length := by
      rw [hrep.registers, uint, BitVec.toNat_ofNat, Nat.mod_eq_of_lt hlen]
    rw [hseq]
    exact ⟨rfl, storeAll_draw _ _ _, fun j hj => hrep.kept j (holen ▸ hj)⟩

theorem keepsOutputs_self (s : State) : KeepsOutputs s s := ⟨rfl, rfl, rfl, rfl, rfl, rfl, rfl, rfl⟩

theorem clockTick_keepsOutputs (s : State) : KeepsOutputs s (clockTick s) := by
  cases hc : s.inFlight with
  | none => rw [clockTick_idle s hc]; exact keepsOutputs_self s
  | some c => rw [clockTick_inFlight s c hc]; exact { keepsOutputs_self s with }

/-- Only the release of RST writes outputs without a completion. -/
theorem applyEvent_keepsOutputs (s : State) (e : Event) (he : e ≠ .rst false) :
    KeepsOutputs s (applyEvent s e) := by
  rcases applyEvent_cases s e with
    h | ⟨a, off, n, -, -, h⟩ | ⟨a, off, n, v, -, -, h⟩ | ⟨-, h⟩ | ⟨b, hb, h⟩ <;> rw [h]
  · exact keepsOutputs_self s
  · exact { keepsOutputs_self s with }
  · obtain ⟨hk, -⟩ := memWrite_frame s off n v
    exact { hk with }
  · exact clockTick_keepsOutputs s
  · cases b with
    | true => exact { keepsOutputs_self s with }
    | false => exact absurd hb he

/-- Settles O42: the step is the next event, or a clock cycle. -/
theorem outputsChangeOnlyAtCompletionOrReset : Obligations.OutputsChangeOnlyAtCompletionOrReset := by
  intro s hdue hrel
  refine ⟨_, step_of_not_due s hdue, ?_⟩
  unfold nextEvent
  split
  case h_1 e rest hev =>
    have he : e ≠ .rst false := fun h => hrel rest (h ▸ hev)
    exact { applyEvent_keepsOutputs { s with events := rest } e he with }
  case h_2 => exact clockTick_keepsOutputs s

end Sys2Proof.Machine

/-! ## The family `20_memory.md`: proofs

First the frame tag of a word that decodes, then the integers and the byte sequences (R70 to R74), the
register window on the bus (R60 to R65) and the order of events (R76). -/

namespace Sys2Proof

/-! ### The opcode map -/

@[simp] theorem needNoFrameTag_eq_ok (ft : BitVec 2) (k : Except DecodeError Instr) (i : Instr) :
    needNoFrameTag ft k = .ok i ↔ ft = 0 ∧ k = .ok i := by
  unfold needNoFrameTag
  split
  case isTrue h => simp [h]
  case isFalse h => simp only [h, reduceCtorEq, false_and]

@[simp] theorem needNoForce8_eq_ok (f8 : Bool) (k : Except DecodeError Instr) (i : Instr) :
    needNoForce8 f8 k = .ok i ↔ f8 = false ∧ k = .ok i := by
  cases f8 <;> simp [needNoForce8]

@[simp] theorem needNoSize_eq_ok (sz : Bool) (k : Except DecodeError Instr) (i : Instr) :
    needNoSize sz k = .ok i ↔ sz = false ∧ k = .ok i := by
  cases sz <;> simp [needNoSize]

/-- What the opcode map can answer (30_encoding.md R92). -/
theorem decodeFields_cases (op : BitVec 4) (ft : BitVec 2) (f8 sz : Bool) (i : Instr)
    (h : decodeFields op ft f8 sz = .ok i) :
    (op = 1 ∧ ft = 0 ∧ f8 = false ∧ sz = false ∧ i = .nthbit) ∨
    (op = 2 ∧ ft = 0 ∧ f8 = false ∧ sz = false ∧ i = .partofbyte) ∨
    (op = 3 ∧ f8 = false ∧ sz = false ∧ i = .nthbyte ft) ∨
    (op = 4 ∧ sz = false ∧ i = .bytesfromto ft f8) ∨
    (op = 5 ∧ ft = 0 ∧ f8 = false ∧ i = .inttostring sz) ∨
    (op = 6 ∧ ft = 0 ∧ f8 = false ∧ sz = false ∧ i = .stringtoint) := by
  unfold decodeFields at h
  split_ifs at h <;>
    simp only [needNoFrameTag_eq_ok, needNoForce8_eq_ok, needNoSize_eq_ok, Except.ok.injEq] at h <;>
    simp [*]

/-- A word that decodes does so by the opcode map (30_encoding.md R90 to R92). -/
theorem decodeFields_of_decode (c : Word) (i : Instr) (h : decode c = .ok i) :
    decodeFields (opField c) (ftField c) (f8Field c) (szField c) = .ok i := by
  unfold decode at h
  split_ifs at h
  exact h

/-- FT = CMD[5:4] is the frame tag of the two commands that have one (30_encoding.md R90, R92). -/
theorem ftField_of_decode (c : Word) (ft : BitVec 2) (f8 : Bool)
    (h : decode c = .ok (.nthbyte ft) ∨ decode c = .ok (.bytesfromto ft f8)) : ftField c = ft := by
  rcases h with h | h
  · have hcases := decodeFields_cases _ _ _ _ _ (decodeFields_of_decode c _ h)
    simp only [reduceCtorEq, and_false, or_false, false_or, Instr.nthbyte.injEq] at hcases
    obtain ⟨-, -, -, hft⟩ := hcases
    exact hft.symm
  · have hcases := decodeFields_cases _ _ _ _ _ (decodeFields_of_decode c _ h)
    simp only [reduceCtorEq, and_false, or_false, false_or, Instr.bytesfromto.injEq] at hcases
    obtain ⟨-, -, hft, -⟩ := hcases
    exact hft.symm

end Sys2Proof

namespace Sys2Proof.Machine

/-! ### The significant-byte width -/

/-- `w(n)` is characterised by the widths that hold n: they are those from `w(n)` on (20_memory.md
R70). -/
theorem width_le_iff (n k : Nat) (hn : n < 2 ^ 64) (hk : 1 ≤ k) : width n ≤ k ↔ n < 2 ^ (8 * k) := by
  by_cases h8 : 8 ≤ k
  · have hpow : 2 ^ 64 ≤ 2 ^ (8 * k) := Nat.pow_le_pow_right (by omega) (by omega)
    exact iff_of_true ((width_le n).trans h8) (hn.trans_le hpow)
  · interval_cases k <;> (unfold width; split_ifs <;> omega)

theorem lt_two_pow_width (n : Nat) (hn : n < 2 ^ 64) : n < 2 ^ (8 * width n) :=
  (width_le_iff n (width n) hn (width_pos n)).1 le_rfl

/-- One byte less does not hold n, unless n = 0. -/
theorem two_pow_width_pred_le (n : Nat) (hn : n < 2 ^ 64) (h0 : n ≠ 0) : 2 ^ (8 * (width n - 1)) ≤ n := by
  by_cases h1 : width n = 1
  · simpa [h1] using Nat.one_le_iff_ne_zero.2 h0
  · have hpos := width_pos n
    have hle := width_le_iff n (width n - 1) hn (by omega)
    by_contra hlt
    have := hle.2 (by omega)
    omega

/-- Settles O14: every clause reads `width_le_iff` at one width. -/
theorem widthIsTheLeastThatHolds : Obligations.WidthIsTheLeastThatHolds := by
  intro n hn
  refine ⟨width_pos n, width_le n, lt_two_pow_width n hn, fun hbyte => ?_, fun k hk _ hlt => ?_⟩
  · exact le_antisymm ((width_le_iff n 1 hn le_rfl).2 hbyte) (width_pos n)
  · exact (width_le_iff n k hn hk).2 hlt

/-! ### Big-endian byte sequences -/

/-- The `k` low bytes of `n`, the most significant first; `Be(n)` is those of the width of n
(`be_eq_lowBytes`). -/
def lowBytes (k n : Nat) : List Byte :=
  (List.range k).map fun i => BitVec.ofNat 8 (n >>> (8 * (k - 1 - i)))

theorem be_eq_lowBytes (n : Nat) : be n = lowBytes (width n) n := rfl

theorem lowBytes_succ (k n : Nat) :
    lowBytes (k + 1) n = BitVec.ofNat 8 (n >>> (8 * k)) :: lowBytes k n := by
  simp [lowBytes, List.range_succ_eq_map, Nat.sub_sub, Nat.add_comm]

theorem two_pow_eight_mul (k : Nat) : 2 ^ (8 * k) = 256 ^ k := pow_mul 2 8 k

@[simp] theorem lowBytes_length (k n : Nat) : (lowBytes k n).length = k := by simp [lowBytes]

/-- The fold of the `k` low bytes is what `k` bytes keep of n. -/
theorem fold_lowBytes (k n : Nat) : fold (lowBytes k n) = n % 2 ^ (8 * k) := by
  induction k with
  | zero => simp [lowBytes, Nat.mod_one]
  | succ k ih =>
    rw [lowBytes_succ, fold_cons, ih, lowBytes_length, BitVec.toNat_ofNat, Nat.shiftRight_eq_div_pow,
      two_pow_eight_mul, two_pow_eight_mul, Nat.mod_pow_succ (b := 256), Nat.add_comm,
      Nat.mul_comm]

/-- Byte `i` of `Be(n)` as a number (20_memory.md R71). -/
theorem be_getD_toNat (n i : Nat) (h : i < width n) :
    ((be n).getD i 0).toNat = n / 2 ^ (8 * (width n - 1 - i)) % 256 := by
  rw [be_getD n i h, BitVec.toNat_ofNat, Nat.shiftRight_eq_div_pow]

/-- The first byte of `Be(n)` is n without its lower bytes. -/
theorem be_head_toNat (n : Nat) (hn : n < 2 ^ 64) :
    ((be n).getD 0 0).toNat = n / 2 ^ (8 * (width n - 1)) := by
  have hpos := width_pos n
  have hlt : n < 2 ^ (8 * (width n - 1)) * 256 := by
    have hsplit : 8 * width n = 8 * (width n - 1) + 8 := by omega
    calc n < 2 ^ (8 * width n) := lt_two_pow_width n hn
      _ = 2 ^ (8 * (width n - 1)) * 256 := by rw [hsplit, pow_add]; norm_num
  rw [be_getD_toNat n 0 hpos, Nat.sub_zero, Nat.mod_eq_of_lt (Nat.div_lt_of_lt_mul hlt)]

theorem be_head_ne_zero (n : Nat) (hn : n < 2 ^ 64) (h0 : n ≠ 0) : (be n).getD 0 0 ≠ 0 := by
  have hpos : 0 < n / 2 ^ (8 * (width n - 1)) :=
    Nat.div_pos (two_pow_width_pred_le n hn h0) (Nat.two_pow_pos _)
  rw [← be_head_toNat n hn] at hpos
  intro hz
  rw [hz] at hpos
  exact Nat.lt_irrefl 0 hpos

/-- Settles O15. -/
theorem beIsMinimalBigEndian : Obligations.BeIsMinimalBigEndian := fun n hn =>
  ⟨be_length n, be_getD_toNat n, be_head_ne_zero n hn, by decide⟩

/-! ### The fold -/

/-- The fold as a sum, for a sequence of any length (20_memory.md R72). -/
theorem fold_eq_sum (s : List Byte) :
    fold s = ∑ i ∈ Finset.range s.length, (s.getD i 0).toNat * 2 ^ (8 * (s.length - 1 - i)) := by
  induction s with
  | nil => simp
  | cons b s ih =>
    rw [fold_cons, ih, List.length_cons, Finset.sum_range_succ', Nat.add_comm]
    simp [two_pow_eight_mul, Nat.sub_sub, Nat.add_comm]

theorem fold_lt_two_pow (s : List Byte) : fold s < 2 ^ (8 * s.length) := by
  rw [two_pow_eight_mul]; exact fold_lt s

theorem fold_lt_word (s : List Byte) (h : s.length ≤ 8) : fold s < 2 ^ 64 :=
  (fold_lt_two_pow s).trans_le (Nat.pow_le_pow_right (by omega) (by omega))

theorem uint_lo64_natCast (n : Nat) (h : n < 2 ^ 64) : uint (lo64 n) = n := by
  rw [uint, lo64_natCast, BitVec.toNat_ofNat, Nat.mod_eq_of_lt h]

/-- Settles O16. -/
theorem foldIsTheWeightedSum : Obligations.FoldIsTheWeightedSum :=
  ⟨fold_nil, fun s hs =>
    ⟨fold_eq_sum s, Nat.le_sub_one_of_lt (fold_lt_two_pow s), uint_lo64_natCast _ (fold_lt_word s hs)⟩⟩

theorem fold_be (n : Nat) (hn : n < 2 ^ 64) : fold (be n) = n := by
  rw [be_eq_lowBytes, fold_lowBytes, Nat.mod_eq_of_lt (lt_two_pow_width n hn)]

/-- A sequence with no leading zero byte has the width of its fold. -/
theorem width_fold (b : Byte) (s : List Byte) (hb : b ≠ 0) (hl : (b :: s).length ≤ 8) :
    width (fold (b :: s)) = (b :: s).length := by
  have hword := fold_lt_word (b :: s) hl
  apply le_antisymm
  · exact (width_le_iff _ _ hword (by simp)).2 (fold_lt_two_pow (b :: s))
  · cases s with
    | nil => exact width_pos _
    | cons c t =>
      have hbpos : 1 ≤ b.toNat := Nat.pos_of_ne_zero fun h => hb (BitVec.eq_of_toNat_eq h)
      have hge : 2 ^ (8 * (c :: t).length) ≤ fold (b :: c :: t) := by
        rw [fold_cons, two_pow_eight_mul]
        exact (Nat.le_mul_of_pos_left _ hbpos).trans (Nat.le_add_right _ _)
      have hnot : ¬ width (fold (b :: c :: t)) ≤ (c :: t).length := by
        rw [width_le_iff _ _ hword (by simp)]
        omega
      simp only [List.length_cons] at hnot ⊢
      omega

theorem be_fold (b : Byte) (s : List Byte) (hb : b ≠ 0) (hl : (b :: s).length ≤ 8) :
    be (fold (b :: s)) = b :: s := by
  apply fold_injective
  · rw [be_length, width_fold b s hb hl]
  · exact fold_be _ (fold_lt_word (b :: s) hl)

/-- Settles O17. -/
theorem foldAndBeAreInverse : Obligations.FoldAndBeAreInverse := by
  refine ⟨fold_be, fun s h1 h8 hhead => ?_⟩
  cases s with
  | nil => simp at h1
  | cons b s => exact be_fold b s hhead h8

/-! ### The frame view -/

theorem inputFrame_tooLong (cap : Nat) (S : Snapshot) (h : cap < uint S.ilen) :
    inputFrame cap S = .error { kind := .illegalRequest, val := S.ilen, bnd := lo64 cap } := if_pos h

theorem inputFrame_fits (cap : Nat) (S : Snapshot) (h : uint S.ilen ≤ cap) :
    inputFrame cap S = .ok (inputBytes S) := if_neg (Nat.not_lt.2 h)

theorem frameView_bytes (cap : Nat) (S : Snapshot) : frameView cap 0 S = inputFrame cap S := rfl

theorem frameView_negative (cap : Nat) (S : Snapshot) (h : sint S.opa < 0) :
    frameView cap 1 S = .error { kind := .negativeFrame, val := S.opa, bnd := 0 } := if_pos h

theorem frameView_integer (cap : Nat) (S : Snapshot) (h : 0 ≤ sint S.opa) :
    frameView cap 1 S = .ok (be (sint S.opa).toNat) := if_neg (Int.not_lt.2 h)

/-- The sign bit is clear in the 8 bytes of a non-negative operand (20_memory.md R74). -/
theorem be_head_le_of_width_eight (n : Nat) (hn : n < 2 ^ 63) (h8 : width n = 8) :
    ((be n).getD 0 0).toNat ≤ 0x7F := by
  rw [be_head_toNat n (by omega), h8]
  omega

theorem sint_toNat_lt (v : Word) : (sint v).toNat < 2 ^ 63 := by
  have := BitVec.toInt_lt (x := v)
  simp only [sint]
  omega

/-- Settles O18: the tag through the opcode map, then one `frameView` rule for each tag. -/
theorem frameViewFollowsTheTag : Obligations.FrameViewFollowsTheTag := by
  refine ⟨ftField_of_decode, fun cap ft S => ⟨?_, ?_, ?_, ?_, ?_, ?_⟩⟩
  · rintro rfl hlong
    rw [frameView_bytes, inputFrame_tooLong cap S hlong]
  · rintro rfl hfits
    exact ⟨inputBytes S, inputFrame_fits cap S hfits, inputBytes_length S, inputBytes_getD S⟩
  · rintro rfl hneg
    exact frameView_negative cap S hneg
  · rintro rfl hpos
    rw [be_length]
    exact ⟨frameView_integer cap S hpos, width_pos _, width_le _,
      be_head_le_of_width_eight _ (sint_toNat_lt S.opa)⟩
  · rintro rfl; rfl
  · rintro rfl; rfl

/-! ### Accesses that reach nothing -/

/-- Inside the window the accesses with no location are those whose size or alignment R62 does not
list. -/
theorem locate_eq_none_iff (cap off n : Nat) (h : off < 0x3000) :
    locate cap off n = none ↔ off < 0x1000 ∧ (n ≠ 8 ∨ off % 8 ≠ 0) ∨ 0x1000 ≤ off ∧ n ≠ 1 := by
  unfold locate
  split_ifs <;> simp <;> omega

/-- The registers end at 0x05F (20_memory.md R61). -/
theorem registerAt_reserved (off : Nat) (h : 0x060 ≤ off) : registerAt off = none := by
  have hlt : ∀ r : RegName, r.offset < 0x060 := fun r => by cases r <;> decide
  refine List.find?_eq_none.2 fun r _ => ?_
  have := hlt r
  simp only [beq_iff_eq]
  omega

/-- An access of any size at a reserved offset reaches no register and no byte (20_memory.md R61). -/
theorem locate_reserved (cap off n : Nat)
    (h : 0x060 ≤ off ∧ off < 0x1000 ∨ 0x1000 + cap ≤ off ∧ off < 0x2000 ∨
      0x2000 + cap ≤ off ∧ off < 0x3000) :
    locate cap off n = none ∨ locate cap off n = some .reserved := by
  unfold locate
  rcases h with ⟨hlo, hhi⟩ | ⟨hlo, hhi⟩ | ⟨hlo, hhi⟩
  · rw [if_pos hhi, registerAt_reserved off hlo]
    split_ifs <;> simp
  · rw [if_neg (by omega), if_pos hhi, if_neg (c := off - 0x1000 < cap) (by omega)]
    split_ifs <;> simp
  · rw [if_neg (by omega), if_neg (by omega), if_pos hhi, if_neg (c := off - 0x2000 < cap) (by omega)]
    split_ifs <;> simp

/-- An access with no location, or at a reserved one, does nothing, with RST asserted or not. -/
theorem access_reaching_nothing (s : State) (off n : Nat) (v : Word)
    (h : locate s.params.bufCap off n = none ∨ locate s.params.bufCap off n = some .reserved) :
    memRead s off n = 0 ∧ memWrite s off n v = s := by
  rcases h with h | h <;> simp [memRead, memWrite, h, readLocation, writeLocation]

/-- Settles O49. -/
theorem unsupportedAccessesDoNothing : Obligations.UnsupportedAccessesDoNothing := by
  intro s off n v h
  have hnone := (locate_eq_none_iff s.params.bufCap off n (by omega)).2 (by omega)
  exact access_reaching_nothing s off n v (.inl hnone)

/-- Settles O50. -/
theorem reservedOffsetsReadZero : Obligations.ReservedOffsetsReadZero := fun s off n v h =>
  access_reaching_nothing s off n v (locate_reserved s.params.bufCap off n h)

/-! ### Bus accesses -/

theorem busError_eq (s : State) (off n : Nat) (h : off < 0x3000) :
    busError s off n = (s.params.busErrOnUnsupported &&
      decide (off < 0x1000 ∧ (n ≠ 8 ∨ off % 8 ≠ 0) ∨ 0x1000 ≤ off ∧ n ≠ 1)) := by
  rw [busError]
  congr 1
  rw [Bool.eq_iff_iff, Option.isNone_iff_eq_none, decide_eq_true_iff, locate_eq_none_iff _ off n h]

theorem applyEvent_read (s : State) (a off n : Nat) (h : windowOffset s.params a = some off) :
    applyEvent s (.read a n) = hostRead s off n := by simp [applyEvent, h]

theorem applyEvent_write (s : State) (a off n : Nat) (v : Word) (h : windowOffset s.params a = some off) :
    applyEvent s (.write a n v) = hostWrite s off n v := by simp [applyEvent, h]

/-- An access outside the window is not the block's (log entry 11). -/
theorem applyEvent_outside (s : State) (a n : Nat) (v : Word) (h : windowOffset s.params a = none) :
    applyEvent s (.read a n) = s ∧ applyEvent s (.write a n v) = s := by simp [applyEvent, h]

/-- What the block has answered is no part of what a read gives. -/
theorem memRead_replies (s : State) (rs : List Reply) (off n : Nat) :
    memRead { s with replies := rs } off n = memRead s off n := rfl

/-- Settles O51: the offset through `windowOffset`, and a read changes only the answers. -/
theorem readsHaveNoSideEffect : Obligations.ReadsHaveNoSideEffect := by
  intro s
  refine ⟨fun off n hoff => ?_, fun a n v ha => ?_, fun a n off m => ?_⟩
  · have hwin := windowOffset_inside s.params off hoff
    exact ⟨busError s off n, busError_eq s off n hoff, applyEvent_read s _ off n hwin,
      fun v => applyEvent_write s _ off n v hwin⟩
  · exact applyEvent_outside s a n v (windowOffset_outside s.params a ha)
  · cases hwin : windowOffset s.params a with
    | none => rw [(applyEvent_outside s a n 0 hwin).1]
    | some woff => rw [applyEvent_read s a woff n hwin, hostRead, memRead_replies]

/-! ### The order of events -/

theorem completionDue_eq_none_iff (s : State) :
    completionDue s = none ↔
      s.rst = true ∨ s.inFlight = none ∨ ∃ c, s.inFlight = some c ∧ c.remaining ≠ 0 := by
  unfold completionDue
  cases hr : s.rst <;> cases hc : s.inFlight <;> simp

/-- Settles O7: with no completion due the step is `nextEvent`, by what waits. -/
theorem stepTakesOneEventInOrder : Obligations.StepTakesOneEventInOrder := by
  intro s h
  rw [step_of_not_due s ((completionDue_eq_none_iff s).2 h)]
  exact ⟨fun e rest hev => by simp [nextEvent, hev], fun hev => by simp [nextEvent, hev]⟩

end Sys2Proof.Machine

/-! ## The family `30_encoding.md`: proofs

First the fields of a command word as numbers and the word from its fields (R90), then decoder and encoder
(R92) and the legality formula (R93), then the operands a command reads (R95) and the host's notation (R98,
R99). -/

namespace Sys2Proof

/-! ### The fields of a word -/

theorem opField_toNat (c : Word) : (opField c).toNat = c.toNat % 16 := by
  simp [opField]

theorem ftField_toNat (c : Word) : (ftField c).toNat = c.toNat / 16 % 4 := by
  simp [ftField, Nat.shiftRight_eq_div_pow]

theorem toNat_getLsbD (c : Word) (i : Nat) : (c.getLsbD i).toNat = c.toNat / 2 ^ i % 2 := by
  rw [BitVec.getLsbD, Nat.toNat_testBit]

theorem f8Field_toNat (c : Word) : (f8Field c).toNat = c.toNat / 64 % 2 := toNat_getLsbD c 6

theorem szField_toNat (c : Word) : (szField c).toNat = c.toNat / 128 % 2 := toNat_getLsbD c 7

/-- A word without reserved bits is its four fields (30_encoding.md R90). -/
theorem packFields_fields (c : Word) (h : c.toNat < 256) :
    packFields (opField c).toNat (ftField c).toNat (f8Field c).toNat (szField c).toNat = c := by
  rw [opField_toNat, ftField_toNat, f8Field_toNat, szField_toNat]
  apply BitVec.eq_of_toNat_eq
  rw [packFields, BitVec.toNat_ofNat]
  omega

/-! ### Decoder and encoder -/

theorem toNat_lt_of_decode (c : Word) (i : Instr) (h : decode c = .ok i) : c.toNat < 256 := by
  by_contra hge
  obtain ⟨e, he⟩ := decode_of_large c (by omega)
  rw [h] at he
  cases he

/-- The command of the opcode map keeps all four fields: those it does not carry are 0 (30_encoding.md
R92). -/
theorem encode_of_decodeFields (op : BitVec 4) (ft : BitVec 2) (f8 sz : Bool) (i : Instr)
    (h : decodeFields op ft f8 sz = .ok i) : encode i = packFields op.toNat ft.toNat f8.toNat sz.toNat := by
  rcases decodeFields_cases op ft f8 sz i h with
    ⟨rfl, rfl, rfl, rfl, rfl⟩ | ⟨rfl, rfl, rfl, rfl, rfl⟩ | ⟨rfl, rfl, rfl, rfl⟩ | ⟨rfl, rfl, rfl⟩ |
    ⟨rfl, rfl, rfl, rfl⟩ | ⟨rfl, rfl, rfl, rfl, rfl⟩ <;> rfl

theorem encode_of_decode (c : Word) (i : Instr) (h : decode c = .ok i) : encode i = c := by
  rw [encode_of_decodeFields _ _ _ _ i (decodeFields_of_decode c i h),
    packFields_fields c (toNat_lt_of_decode c i h)]

@[simp] theorem decode_encode (i : Instr) : decode (encode i) = .ok i := by
  cases i with
  | nthbit => decide
  | partofbyte => decide
  | nthbyte ft => revert ft; decide
  | bytesfromto ft f8 => revert ft f8; decide
  | inttostring sz => revert sz; decide
  | stringtoint => decide

/-- A word decodes to a command exactly when it is that command's word. -/
theorem decode_eq_ok_iff (c : Word) (i : Instr) : decode c = .ok i ↔ encode i = c :=
  ⟨encode_of_decode c i, fun h => h ▸ decode_encode i⟩

/-- Settles O2: every command by its fields, every accepted word by `packFields_fields`. -/
theorem encodeAndDecodeAgree : Obligations.EncodeAndDecodeAgree := ⟨decode_encode, encode_of_decode⟩

/-- R92 leaves no command out. -/
theorem mem_allCommands (i : Instr) : i ∈ Machine.allCommands := by
  cases i with
  | nthbit => decide
  | partofbyte => decide
  | nthbyte ft => revert ft; decide
  | bytesfromto ft f8 => revert ft f8; decide
  | inttostring sz => revert sz; decide
  | stringtoint => decide

theorem mem_encodings_iff (c : Word) (i : Instr) :
    (c, i) ∈ Machine.allCommands.map (fun j => (encode j, j)) ↔ encode i = c := by
  simp [mem_allCommands]

/-- Settles O1: the table pairs each command with its word. -/
theorem decoderFollowsTheOpcodeMap : Obligations.DecoderFollowsTheOpcodeMap := fun c i =>
  (decode_eq_ok_iff c i).trans (mem_encodings_iff c i).symm

/-! ### The legality formula -/

/-- The five clauses of R93 as statements about the number of the word. -/
theorem legal_iff (c : Word) :
    legal c = true ↔
      c.toNat / 256 = 0 ∧ c.toNat % 16 ∈ [1, 2, 3, 4, 5, 6] ∧
      (c.toNat % 16 ∈ [1, 2, 5, 6] → c.toNat / 16 % 4 = 0) ∧
      (c.toNat % 16 ∈ [1, 2, 3, 5, 6] → c.toNat / 64 % 2 = 0) ∧
      (c.toNat % 16 ∈ [1, 2, 3, 4, 6] → c.toNat / 128 % 2 = 0) := by
  simp only [legal, legalReserved, legalOpcode, legalFrameTag, legalForce8, legalSize, Bool.and_eq_true,
    Bool.or_eq_true, Bool.not_eq_true', ← Bool.not_eq_true, List.contains_iff_mem, beq_iff_eq, and_assoc,
    imp_iff_not_or]

theorem legal_encode (i : Instr) : legal (encode i) = true := by
  have h : Laws.LegalWord.Statement i := by
    cases i with
    | nthbit => exact Laws.LegalWord.nthbit
    | partofbyte => exact Laws.LegalWord.partofbyte
    | nthbyte ft => exact Laws.LegalWord.nthbyte ft
    | bytesfromto ft f8 => exact Laws.LegalWord.bytesfromto ft f8
    | inttostring sz => exact Laws.LegalWord.inttostring sz
    | stringtoint => exact Laws.LegalWord.stringtoint
  exact h.1

/-- The opcode of a legal word names its command, which takes the fields R93 lets vary. -/
theorem exists_encode_of_legal (c : Word) (h : legal c = true) : ∃ i, encode i = c := by
  obtain ⟨hrsvd, hop, hft, hf8, hsz⟩ := (legal_iff c).1 h
  have hc := packFields_fields c (by omega)
  rw [← ftField_toNat] at hft
  rw [← f8Field_toNat] at hf8
  rw [← szField_toNat] at hsz
  rw [opField_toNat] at hc
  simp only [List.mem_cons, List.not_mem_nil, or_false] at hop
  rcases hop with hop | hop | hop | hop | hop | hop <;> rw [hop] at hft hf8 hsz hc
  · rw [hft (by decide), hf8 (by decide), hsz (by decide)] at hc
    exact ⟨.nthbit, hc⟩
  · rw [hft (by decide), hf8 (by decide), hsz (by decide)] at hc
    exact ⟨.partofbyte, hc⟩
  · rw [hf8 (by decide), hsz (by decide)] at hc
    exact ⟨.nthbyte (ftField c), hc⟩
  · rw [hsz (by decide)] at hc
    exact ⟨.bytesfromto (ftField c) (f8Field c), hc⟩
  · rw [hft (by decide), hf8 (by decide)] at hc
    exact ⟨.inttostring (szField c), hc⟩
  · rw [hft (by decide), hf8 (by decide), hsz (by decide)] at hc
    exact ⟨.stringtoint, hc⟩

theorem legal_iff_exists_encode (c : Word) : legal c = true ↔ ∃ i, encode i = c :=
  ⟨exists_encode_of_legal c, fun ⟨i, hi⟩ => hi ▸ legal_encode i⟩

/-- Settles O3: both sides say that the word is a command's. -/
theorem legalityFormulaMatchesDecoder : Obligations.LegalityFormulaMatchesDecoder := fun c => by
  simp only [legal_iff_exists_encode, decode_eq_ok_iff]

theorem decode_error_of_not_legal (c : Word) (h : ¬ legal c = true) : ∃ e, decode c = .error e := by
  cases hd : decode c with
  | error e => exact ⟨e, rfl⟩
  | ok i => exact absurd ((legal_iff_exists_encode c).2 ⟨i, encode_of_decode c i hd⟩) h

end Sys2Proof

namespace Sys2Proof.Machine

theorem snapshotResult_of_not_legal (cap : Nat) (S : Snapshot) (h : ¬ legal S.cmd = true) :
    snapshotResult cap S = illegalWord S := by
  obtain ⟨e, he⟩ := decode_error_of_not_legal S.cmd h
  rw [snapshotResult, he]

/-- Settles O4: a word that is not legal decodes to no command, and a legal one is a command's word. -/
theorem legalityIsCheckedFirst : Obligations.LegalityIsCheckedFirst := by
  intro s c hr hc h0
  rw [← legal_iff]
  refine ⟨fun hbad => ?_, fun hok => ?_⟩
  · rw [step_of_due s c hr hc h0, snapshotResult_of_not_legal _ _ hbad, illegalWord, complete_raise]
  · obtain ⟨i, hi⟩ := exists_encode_of_legal c.snap.cmd hok
    exact ⟨i, hi, step_of_decode s c i hr hc h0 ((decode_eq_ok_iff _ i).2 hi)⟩

/-! ### What a command reads -/

theorem inputFrame_congr (cap : Nat) (S T : Snapshot) (h : SameInput S T) :
    inputFrame cap S = inputFrame cap T :=
  frameView_congr cap 0 S T (fun _ => h) (fun h01 => absurd h01 (by decide))

/-- The pseudocode of a command sees of its snapshot only what R95 lists for it. -/
theorem commandResult_congr (cap : Nat) (i : Instr) (S T : Snapshot) (h : ReadsSame i S T) :
    commandResult cap i S = commandResult cap i T := by
  cases i with
  | nthbit =>
    obtain ⟨ha, hb⟩ := h
    simp only [commandResult, nthbitResult, byteOperand, bitNumberOperand, ha, hb]
  | partofbyte =>
    obtain ⟨ha, hb⟩ := h
    simp only [commandResult, partofbyteResult, byteOperand, partOperand, ha, hb]
  | nthbyte ft =>
    obtain ⟨hb, hbytes, hint⟩ := h
    simp only [commandResult, nthbyteResult, byteAtIndex, byteNumberOperand, hb,
      frameView_congr cap ft S T hbytes hint]
  | bytesfromto ft f8 =>
    obtain ⟨hb, hc, hbytes, hint⟩ := h
    simp only [commandResult, bytesfromtoResult, foldRange, rangeWidth, fromOperand, toOperand, hb, hc,
      frameView_congr cap ft S T hbytes hint]
  | inttostring sz =>
    obtain ⟨ha, hb⟩ := h
    cases sz with
    | false => simp [commandResult, inttostringResult, integerOperand, ha]
    | true => simp only [commandResult, inttostringResult, integerOperand, sizeOperand, ha, hb rfl]
  | stringtoint =>
    simp only [commandResult, stringtointResult, inputFrame_congr cap S T h, h.ilen]

/-- Settles O39: the two results are one. -/
theorem unreadOperandsDoNotMatter : Obligations.UnreadOperandsDoNotMatter := fun s S T i h =>
  exec_sameReport s S T i i (commandResult_congr s.params.bufCap i S T h)

/-! ### The host's notation -/

theorem systemRead_register (b : State) (r : RegName) (h : b.rst = false) :
    systemRead b r.offset 8 = (hostRead b r.offset 8, readRegister b r) := by
  have hwin : r.offset < 0x3000 := by cases r <;> decide
  rw [systemRead, if_pos hwin, memRead_register b r h]

/-- One turn of `WAIT` is a read of STATUS, and BUSY says whether the host goes on (30_encoding.md R99). -/
theorem hostTurn_wait (sys : System) (hr : sys.block.rst = false)
    (hp : sys.host.program[sys.host.pos]? = some .wait) :
    sys.hostTurn =
      { host := if sys.block.busy then sys.host else advance sys.host
        block := hostRead sys.block RegName.status.offset 8 } := by
  have hbit : (readRegister sys.block .status).getLsbD 0 = sys.block.busy := statusWord_getLsbD sys.block 0
  simp only [System.hostTurn, hp, runStmt, readStatus, systemRead_register _ _ hr, hbit]

/-- Settles O60: the turn is `hostTurn_wait`. -/
theorem waitStaysWhileBusy : Obligations.WaitStaysWhileBusy := by
  intro sys hr hp
  rw [hostTurn_wait sys hr hp]
  exact ⟨fun hb => if_pos hb, fun hb => by simp [hb, advance], _, rfl⟩

/-- The table's 32 bits hold the whole word of a command (30_encoding.md R97; log entry 15). -/
theorem decodeTableWord_encode (i : Instr) : decodeTableWord 32 (encode i).toNat = some i := by
  have hlt := toNat_lt_of_decode _ i (decode_encode i)
  rw [decodeTableWord, Nat.mod_eq_of_lt (by omega), BitVec.ofNat_toNat, BitVec.setWidth_eq, decode_encode]

/-- Settles O5: the decoder's column by `decodeTableWord_encode`, the other two by evaluation. -/
theorem spellingsHaveTheirWords : Obligations.SpellingsHaveTheirWords := by
  unfold Obligations.SpellingsHaveTheirWords
  simp only [decodeTableWord_encode]
  decide

end Sys2Proof.Machine

/-! ## The family `40_bit_accessor.md`: proofs

First the operand both commands check and the pseudocode of each, one rule per outcome (R120, R121), then the
laws that put the byte together again (R122, R123, R124). -/

namespace Sys2Proof.Machine

/-! ### The byte operand -/

/-- The low 8 bits of a word that reads as a byte are that byte (40_bit_accessor.md R120, R121). -/
theorem setWidth_byte_toNat (v : Word) (h0 : 0 ≤ sint v) (h1 : sint v ≤ 255) :
    (v.setWidth 8).toNat = (sint v).toNat := by
  have hread := sint_nonneg v h0
  rw [BitVec.toNat_setWidth]
  simp only [sint, uint] at *
  omega

/-- An operand within its bounds passes the check of them. -/
theorem not_outside {z lo hi : Int} (h0 : lo ≤ z) (h1 : z ≤ hi) : ¬ (z < lo ∨ z > hi) := by omega

/-! ### NTHBIT -/

/-- Bit k of a byte, 1 the most significant (00_scope.md R9): the digit of weight 2^(8 − k). -/
def byteBit (b k : Nat) : Nat := b / 2 ^ (8 - k) % 2

theorem byteBit_le_one (b k : Nat) : byteBit b k ≤ 1 := Nat.le_of_lt_succ (Nat.mod_lt _ (by omega))

theorem bitMask_toNat (k : Nat) (h1 : 1 ≤ k) : (bitMask k).toNat = 2 ^ (8 - k) := by
  have hlt : 2 ^ (8 - k) < 2 ^ 8 := Nat.pow_lt_pow_right (by omega) (by omega)
  rw [bitMask, BitVec.toNat_ofNat, Nat.mod_eq_of_lt hlt]

/-- R120's mask leaves a bit exactly when that bit of the byte is 1. -/
theorem and_bitMask_ne_zero_iff (b : Byte) (k : Nat) (h1 : 1 ≤ k) :
    b &&& bitMask k ≠ 0 ↔ byteBit b.toNat k = 1 := by
  have hand : (b &&& bitMask k).toNat = byteBit b.toNat k * 2 ^ (8 - k) := by
    rw [BitVec.toNat_and, bitMask_toNat k h1, Nat.and_two_pow, Nat.toNat_testBit, byteBit]
  have hzero : (0 : Byte).toNat = 0 := rfl
  have hpos := Nat.two_pow_pos (8 - k)
  have hle := byteBit_le_one b.toNat k
  rw [Ne, ← BitVec.toNat_inj, hand, hzero, Nat.mul_eq_zero]
  omega

theorem nthbitResult_invalidInput (S : Snapshot) (h : sint S.opa < 0 ∨ 255 < sint S.opa) :
    nthbitResult S = raise .invalidInput S.opa 255 := if_pos h

theorem nthbitResult_invalidBitIndex (S : Snapshot) (h0 : 0 ≤ sint S.opa) (h1 : sint S.opa ≤ 255)
    (hk : sint S.opb < 1 ∨ 8 < sint S.opb) : nthbitResult S = raise .invalidBitIndex S.opb 8 := by
  rw [nthbitResult, if_neg (not_outside h0 h1), if_pos hk]

theorem nthbitResult_ok (S : Snapshot) (h0 : 0 ≤ sint S.opa) (h1 : sint S.opa ≤ 255)
    (hk1 : 1 ≤ sint S.opb) (hk8 : sint S.opb ≤ 8) :
    nthbitResult S = okWord (BitVec.ofNat 64 (byteBit (sint S.opa).toNat (sint S.opb).toNat)) := by
  have hbit := and_bitMask_ne_zero_iff (S.opa.setWidth 8) (sint S.opb).toNat (by omega)
  rw [setWidth_byte_toNat S.opa h0 h1] at hbit
  have hle := byteBit_le_one (sint S.opa).toNat (sint S.opb).toNat
  rw [nthbitResult, if_neg (not_outside h0 h1), if_neg (not_outside hk1 hk8)]
  split
  case isTrue hset => rw [hbit.1 hset]; rfl
  case isFalse hclear =>
    have hzero : byteBit (sint S.opa).toNat (sint S.opb).toNat = 0 := by
      have := mt hbit.2 hclear
      omega
    rw [hzero]; rfl

/-- Settles O9: one `nthbitResult` rule for each outcome. -/
theorem nthbitReportsTheSelectedBit : Obligations.NthbitReportsTheSelectedBit := by
  refine ⟨rfl, fun s c hc => ⟨fun hbyte => ?_, fun h0 h1 hk => ?_, fun h0 h1 hk1 hk8 => ?_⟩⟩
  · exact failsWith_of_result _ s c hc _ _ _ (nthbitResult_invalidInput c.snap hbyte)
  · exact failsWith_of_result _ s c hc _ _ _ (nthbitResult_invalidBitIndex c.snap h0 h1 hk)
  · exact givesWord_of_result _ s c hc _ (nthbitResult_ok c.snap h0 h1 hk1 hk8)

/-! ### PARTOFBYTE -/

theorem highNibble_toNat (b : Byte) : (highNibble b).toNat = b.toNat / 16 := by
  have hlt : b.toNat / 16 < 2 ^ 4 := by omega
  calc (highNibble b).toNat
      = (b.toNat >>> 4) &&& (0xF0 >>> 4) := by
        rw [highNibble, BitVec.toNat_ushiftRight, BitVec.toNat_and, Nat.shiftRight_and_distrib]; rfl
    _ = b.toNat / 16 % 2 ^ 4 := by
        rw [Nat.shiftRight_eq_div_pow]; exact Nat.and_two_pow_sub_one_eq_mod _ 4
    _ = b.toNat / 16 := Nat.mod_eq_of_lt hlt

theorem lowNibble_toNat (b : Byte) : (lowNibble b).toNat = b.toNat % 16 := by
  rw [lowNibble, BitVec.toNat_and]
  exact Nat.and_two_pow_sub_one_eq_mod _ 4

theorem partofbyteResult_invalidInput (S : Snapshot) (h : sint S.opa < 0 ∨ 255 < sint S.opa) :
    partofbyteResult S = raise .invalidInput S.opa 255 := if_pos h

theorem partofbyteResult_unsupportedPart (S : Snapshot) (h0 : 0 ≤ sint S.opa) (h1 : sint S.opa ≤ 255)
    (hp1 : sint S.opb ≠ 1) (hp2 : sint S.opb ≠ 2) :
    partofbyteResult S = raise .unsupportedPart S.opb 2 := by
  rw [partofbyteResult, if_neg (not_outside h0 h1), if_neg hp1, if_neg hp2]

theorem partofbyteResult_high (S : Snapshot) (h0 : 0 ≤ sint S.opa) (h1 : sint S.opa ≤ 255)
    (hp : sint S.opb = 1) :
    partofbyteResult S = okWord (BitVec.ofNat 64 ((sint S.opa).toNat / 16)) := by
  rw [partofbyteResult, if_neg (not_outside h0 h1), if_pos hp, zext64_byte, highNibble_toNat,
    setWidth_byte_toNat S.opa h0 h1]

theorem partofbyteResult_low (S : Snapshot) (h0 : 0 ≤ sint S.opa) (h1 : sint S.opa ≤ 255)
    (hp : sint S.opb = 2) :
    partofbyteResult S = okWord (BitVec.ofNat 64 ((sint S.opa).toNat % 16)) := by
  have hp1 : sint S.opb ≠ 1 := by omega
  rw [partofbyteResult, if_neg (not_outside h0 h1), if_neg hp1, if_pos hp, zext64_byte,
    lowNibble_toNat, setWidth_byte_toNat S.opa h0 h1]

/-- Settles O10: one `partofbyteResult` rule for each outcome. -/
theorem partofbyteReportsTheNibble : Obligations.PartofbyteReportsTheNibble := by
  refine ⟨rfl, fun s c hc => ⟨fun hbyte => ?_, fun h0 h1 hp1 hp2 => ?_, fun h0 h1 hp => ?_,
    fun h0 h1 hp => ?_⟩⟩
  · exact failsWith_of_result _ s c hc _ _ _ (partofbyteResult_invalidInput c.snap hbyte)
  · exact failsWith_of_result _ s c hc _ _ _ (partofbyteResult_unsupportedPart c.snap h0 h1 hp1 hp2)
  · exact givesWord_of_result _ s c hc _ (partofbyteResult_high c.snap h0 h1 hp)
  · exact givesWord_of_result _ s c hc _ (partofbyteResult_low c.snap h0 h1 hp)

/-! ### The byte from its bits and its nibbles -/

section
variable (s : State) (S : Snapshot) (b : Nat) (hb : b ≤ 255) (hopa : S.opa = BitVec.ofNat 64 b)
include hb hopa

/-- The operand word of a byte reads as the byte. -/
theorem sint_opa_of_byte : sint S.opa = b := hopa ▸ sint_ofNat b (by omega)

theorem givesWord_nthbit_of_byte (k : Nat) (h1 : 1 ≤ k) (h8 : k ≤ 8) (hopb : S.opb = BitVec.ofNat 64 k) :
    GivesWord .nthbit (issued s S) (BitVec.ofNat 64 (byteBit b k)) := by
  have ha := sint_opa_of_byte S b hb hopa
  have hk : sint S.opb = k := hopb ▸ sint_ofNat k (by omega)
  have hres := nthbitResult_ok S (by omega) (by omega) (by omega) (by omega)
  rw [ha, hk, Int.toNat_natCast, Int.toNat_natCast] at hres
  exact givesWord_of_result _ _ _ (issued_inFlight s S) _ hres

theorem givesWord_partofbyte_high_of_byte (hopb : S.opb = 1) :
    GivesWord .partofbyte (issued s S) (BitVec.ofNat 64 (b / 16)) := by
  have ha := sint_opa_of_byte S b hb hopa
  have hres := partofbyteResult_high S (by omega) (by omega) (by rw [hopb]; decide)
  rw [ha, Int.toNat_natCast] at hres
  exact givesWord_of_result _ _ _ (issued_inFlight s S) _ hres

theorem givesWord_partofbyte_low_of_byte (hopb : S.opb = 2) :
    GivesWord .partofbyte (issued s S) (BitVec.ofNat 64 (b % 16)) := by
  have ha := sint_opa_of_byte S b hb hopa
  have hres := partofbyteResult_low S (by omega) (by omega) (by rw [hopb]; decide)
  rw [ha, Int.toNat_natCast] at hres
  exact givesWord_of_result _ _ _ (issued_inFlight s S) _ hres

end

/-- Bits m + 1 to n of a byte, read as a number, are its digits of the weights from 2^(8 − n) up to
2^(7 − m). -/
theorem sum_byteBit (b m n : Nat) (hmn : m ≤ n) (hn : n ≤ 8) :
    ∑ k ∈ Finset.Icc (m + 1) n, byteBit b k * 2 ^ (n - k) = b / 2 ^ (8 - n) % 2 ^ (n - m) := by
  induction n, hmn using Nat.le_induction with
  | base => simp [Nat.mod_one]
  | succ n hmn ih =>
    have hdouble : ∑ k ∈ Finset.Icc (m + 1) n, byteBit b k * 2 ^ (n + 1 - k) =
        2 * ∑ k ∈ Finset.Icc (m + 1) n, byteBit b k * 2 ^ (n - k) := by
      rw [Finset.mul_sum]
      refine Finset.sum_congr rfl fun k hk => ?_
      rw [Nat.succ_sub (Finset.mem_Icc.1 hk).2, pow_succ]
      ring
    have hshift : b / 2 ^ (8 - n) = b / 2 ^ (8 - (n + 1)) / 2 := by
      rw [Nat.div_div_eq_div_mul, ← pow_succ, show 8 - (n + 1) + 1 = 8 - n by omega]
    rw [Finset.sum_Icc_succ_top (by omega), hdouble, ih (by omega), hshift, Nat.succ_sub hmn, pow_succ',
      Nat.mod_mul, Nat.sub_self, pow_zero, mul_one, byteBit, Nat.add_comm]

/-- Settles O11: the result for k is bit k, and bits 1 to 8 are the byte. -/
theorem nthbitResultsRebuildTheByte : Obligations.NthbitResultsRebuildTheByte := by
  intro s S b hb hopa
  refine ⟨byteBit b, fun k h1 h8 => ⟨byteBit_le_one b k, ?_⟩, ?_⟩
  · exact givesWord_nthbit_of_byte s { S with opb := BitVec.ofNat 64 k } b hb hopa k h1 h8 rfl
  · calc ∑ k ∈ Finset.Icc 1 8, byteBit b k * 2 ^ (8 - k)
        = b / 1 % 256 := sum_byteBit b 0 8 (by omega) le_rfl
      _ = b := by omega

/-- Settles O12: the nibbles are quotient and remainder by 16. -/
theorem nibblesRebuildTheByte : Obligations.NibblesRebuildTheByte := fun s S b hb hopa =>
  ⟨b / 16, b % 16, by omega, by omega,
    givesWord_partofbyte_high_of_byte s _ b hb hopa rfl,
    givesWord_partofbyte_low_of_byte s _ b hb hopa rfl, Nat.div_add_mod' b 16⟩

/-- Settles O13: bits 1 to 4 are the quotient by 16, bits 5 to 8 the remainder. -/
theorem nibblesAgreeWithBits : Obligations.NibblesAgreeWithBits := by
  intro s S b hb hopa
  refine ⟨byteBit b, b / 16, b % 16, by omega, by omega, fun k h1 h8 => ⟨byteBit_le_one b k, ?_⟩,
    givesWord_partofbyte_high_of_byte s _ b hb hopa rfl,
    givesWord_partofbyte_low_of_byte s _ b hb hopa rfl, ?_, ?_⟩
  · exact givesWord_nthbit_of_byte s { S with opb := BitVec.ofNat 64 k } b hb hopa k h1 h8 rfl
  · calc b / 16
        = b / 16 % 16 := by omega
      _ = ∑ k ∈ Finset.Icc 1 4, byteBit b k * 2 ^ (4 - k) :=
        (sum_byteBit b 0 4 (by omega) (by omega)).symm
  · calc b % 16
        = b / 1 % 16 := by omega
      _ = ∑ k ∈ Finset.Icc 5 8, byteBit b k * 2 ^ (8 - k) :=
        (sum_byteBit b 4 8 (by omega) le_rfl).symm

end Sys2Proof.Machine

/-! ## The family `41_byte_range.md`: proofs

First the frame and its subranges, then the pseudocode of each command, one rule per outcome (R140, R141),
with what each gives for a frame of either form, then the laws between the two commands (R142, R143, R146)
and about the integer form (R144, R145). -/

namespace Sys2Proof.Machine

/-! ### Frames and their subranges -/

/-- The frame tags that stand for no form have no frame (20_memory.md R74). -/
theorem frameView_noForm (cap : Nat) (ft : BitVec 2) (S : Snapshot) (h0 : ft ≠ 0) (h1 : ft ≠ 1) :
    frameView cap ft S = .error { kind := .invalidFrameType, val := zext64 2 ft, bnd := 1 } := by
  rw [frameView, if_neg h0, if_neg h1, raise]

/-- For a non-negative operand the integer frame is `Be` of the word. -/
theorem frameView_integer_uint (cap : Nat) (S : Snapshot) (h : 0 ≤ sint S.opa) :
    frameView cap 1 S = .ok (be (uint S.opa)) := by
  rw [frameView_integer cap S h, sint_nonneg S.opa h, Int.toNat_natCast]

/-- An integer frame is `Be` of an integer below 2^63. -/
theorem eq_be_of_frameView_integer (cap : Nat) (S : Snapshot) (F : List Byte)
    (h : frameView cap 1 S = .ok F) : ∃ n < 2 ^ 63, F = be n := by
  by_cases hneg : sint S.opa < 0
  · rw [frameView_negative cap S hneg] at h
    cases h
  · rw [frameView_integer cap S (by omega), Except.ok.injEq] at h
    exact ⟨_, sint_toNat_lt S.opa, h.symm⟩

/-- A frame is no longer than the buffer or a word. -/
theorem frameView_length_le (cap : Nat) (ft : BitVec 2) (S : Snapshot) (F : List Byte)
    (h : frameView cap ft S = .ok F) : F.length ≤ max cap 8 := by
  by_cases h0 : ft = 0
  · subst h0
    rw [frameView_bytes] at h
    by_cases hfits : uint S.ilen ≤ cap
    · rw [inputFrame_fits cap S hfits, Except.ok.injEq] at h
      rw [← h, inputBytes_length]
      omega
    · rw [inputFrame_tooLong cap S (by omega)] at h
      cases h
  by_cases h1 : ft = 1
  · subst h1
    obtain ⟨n, -, rfl⟩ := eq_be_of_frameView_integer cap S F h
    have := width_le n
    rw [be_length]
    omega
  · rw [frameView_noForm cap ft S h0 h1] at h
    cases h

/-- A subrange inside a sequence, byte by byte (00_scope.md R11). -/
theorem subrange_eq_map (F : List Byte) (a n : Nat) (h : a + n ≤ F.length) :
    subrange F a n = (List.range n).map fun i => F.getD (a + i) 0 := by
  apply List.ext_getElem
  · simp only [subrange, List.length_take, List.length_drop, List.length_map, List.length_range]
    omega
  · intro i hi _
    have hlt : a + i < F.length := by
      simp only [subrange, List.length_take, List.length_drop] at hi
      omega
    simp [subrange, hlt]

/-- A subrange of `Be(n)` is made of the low bytes of n without the bytes to its right. -/
theorem subrange_be (n a k : Nat) (h : a + k ≤ width n) :
    subrange (be n) a k = lowBytes k (n >>> (8 * (width n - (a + k)))) := by
  rw [subrange_eq_map (be n) a k (by rwa [be_length]), lowBytes]
  refine List.map_congr_left fun i hi => ?_
  have hik := List.mem_range.1 hi
  rw [be_getD n (a + i) (by omega), ← Nat.shiftRight_add]
  congr 2
  omega

theorem fold_subrange_be (n a k : Nat) (h : a + k ≤ width n) :
    fold (subrange (be n) a k) = n / 2 ^ (8 * (width n - (a + k))) % 2 ^ (8 * k) := by
  rw [subrange_be n a k h, fold_lowBytes, Nat.shiftRight_eq_div_pow]

theorem fold_subrange_be_le (n a k : Nat) (h : a + k ≤ width n) : fold (subrange (be n) a k) ≤ n := by
  rw [fold_subrange_be n a k h]
  exact (Nat.mod_le _ _).trans (Nat.div_le_self _ _)

/-- The fold of the bytes a to b of the input, as a sum (20_memory.md R72). -/
theorem fold_subrange_inputBytes (S : Snapshot) (a b : Nat) (hab : a ≤ b) (hb : b < uint S.ilen) :
    fold (subrange (inputBytes S) a (b - a + 1)) =
      ∑ j ∈ Finset.range (b - a + 1), (ibufByte S.ibuf (a + j)).toNat * 2 ^ (8 * (b - a - j)) := by
  rw [subrange_eq_map _ _ _ (by rw [inputBytes_length]; omega), fold_eq_sum, List.length_map,
    List.length_range]
  refine Finset.sum_congr rfl fun j hj => ?_
  have hjlt := Finset.mem_range.1 hj
  rw [List.getD_eq_getElem _ _ (by simpa using hjlt), List.getElem_map, List.getElem_range,
    inputBytes_getD S (a + j) (by omega), Nat.add_sub_cancel]

/-- The fold of one byte is the byte. -/
theorem fold_subrange_one (F : List Byte) (k : Nat) (h : k < F.length) :
    fold (subrange F k 1) = (F.getD k 0).toNat := by
  rw [subrange_eq_map F k 1 h]
  simp

/-! ### NTHBYTE -/

theorem nthbyteResult_frameError (cap : Nat) (ft : BitVec 2) (S : Snapshot) (e : Raise)
    (h : frameView cap ft S = .error e) : nthbyteResult cap ft S = .error e := by
  rw [nthbyteResult, h]

theorem nthbyteResult_frame (cap : Nat) (ft : BitVec 2) (S : Snapshot) (F : List Byte)
    (h : frameView cap ft S = .ok F) : nthbyteResult cap ft S = byteAtIndex S F := by
  rw [nthbyteResult, h]

theorem byteAtIndex_tooShort (S : Snapshot) (F : List Byte)
    (h : sint S.opb < 0 ∨ (F.length : Int) ≤ sint S.opb) :
    byteAtIndex S F = raise .frameTooShort S.opb (lo64 F.length) := if_pos h

theorem byteAtIndex_inside (S : Snapshot) (F : List Byte) (h0 : 0 ≤ sint S.opb)
    (hL : sint S.opb < F.length) :
    byteAtIndex S F = okWord (BitVec.ofNat 64 (F.getD (sint S.opb).toNat 0).toNat) := by
  have hin : ¬ (sint S.opb < 0 ∨ sint S.opb ≥ F.length) := by omega
  rw [byteAtIndex, if_neg hin, zext64_byte]

/-- NTHBYTE at an index of the frame gives that byte. -/
theorem givesWord_nthbyte (s : State) (c : InFlight) (ft : BitVec 2) (F : List Byte)
    (hc : s.inFlight = some c) (hF : frameView s.params.bufCap ft c.snap = .ok F)
    (h0 : 0 ≤ sint c.snap.opb) (hL : sint c.snap.opb < F.length) :
    GivesWord (.nthbyte ft) s (BitVec.ofNat 64 (F.getD (sint c.snap.opb).toNat 0).toNat) :=
  givesWord_of_result _ s c hc _
    ((nthbyteResult_frame _ ft c.snap F hF).trans (byteAtIndex_inside c.snap F h0 hL))

theorem failsWith_nthbyte_frameError (s : State) (c : InFlight) (ft : BitVec 2) (e : Raise)
    (hc : s.inFlight = some c) (he : frameView s.params.bufCap ft c.snap = .error e) :
    FailsWith (.nthbyte ft) s e.kind e.val e.bnd :=
  failsWith_of_result _ s c hc _ _ _ (nthbyteResult_frameError _ ft c.snap e he)

/-- Settles O19: one rule for each outcome, and the word of each frame tag by evaluation. -/
theorem nthbyteFollowsItsRule : Obligations.NthbyteFollowsItsRule := by
  refine ⟨by decide, fun s c ft hc => ⟨fun e he => ?_, fun F hF => ⟨fun hout => ?_, ?_⟩⟩⟩
  · exact failsWith_nthbyte_frameError s c ft e hc he
  · exact failsWith_of_result _ s c hc _ _ _
      ((nthbyteResult_frame _ ft c.snap F hF).trans (byteAtIndex_tooShort c.snap F hout))
  · exact givesWord_nthbyte s c ft F hc hF

/-- Settles O20: `givesWord_nthbyte` at the frame of each form. -/
theorem nthbyteSelectsOneByte : Obligations.NthbyteSelectsOneByte := by
  intro s c hc
  refine ⟨fun hfits h0 hL => ?_, fun ha h0 hL => ?_, ?_, ?_⟩
  · have hgives := givesWord_nthbyte s c 0 _ hc (inputFrame_fits _ c.snap hfits) h0
      (by rwa [inputBytes_length])
    rwa [inputBytes_getD _ _ (by omega)] at hgives
  · have hk := sint_nonneg c.snap.opb h0
    have hgives := givesWord_nthbyte s c 1 _ hc (frameView_integer_uint _ c.snap ha) h0
      (by rwa [be_length])
    rwa [hk, Int.toNat_natCast, be_getD_toNat _ _ (by omega)] at hgives
  · exact failsWith_nthbyte_frameError s c 2 _ hc (frameView_noForm _ 2 c.snap (by decide) (by decide))
  · exact failsWith_nthbyte_frameError s c 3 _ hc (frameView_noForm _ 3 c.snap (by decide) (by decide))

/-! ### BYTESFROMTO -/

theorem bytesfromtoResult_unsupportedWidth (cap : Nat) (ft : BitVec 2) (f8 : Bool) (S : Snapshot)
    (h : rangeWidth S < 1 ∨ maxWidth f8 < rangeWidth S) :
    bytesfromtoResult cap ft f8 S =
      raise .unsupportedWidth (lo64 (rangeWidth S)) (lo64 (maxWidth f8)) := if_pos h

section
variable (cap : Nat) (ft : BitVec 2) (f8 : Bool) (S : Snapshot) (h1 : 1 ≤ rangeWidth S)
  (hmax : rangeWidth S ≤ maxWidth f8)
include h1 hmax

theorem bytesfromtoResult_frameError (e : Raise) (h : frameView cap ft S = .error e) :
    bytesfromtoResult cap ft f8 S = .error e := by
  rw [bytesfromtoResult, if_neg (not_outside h1 hmax), h]

theorem bytesfromtoResult_frame (F : List Byte) (h : frameView cap ft S = .ok F) :
    bytesfromtoResult cap ft f8 S = foldRange S F := by
  rw [bytesfromtoResult, if_neg (not_outside h1 hmax), h]

end

theorem foldRange_negative (S : Snapshot) (F : List Byte) (h : sint S.opb < 0) :
    foldRange S F = raise .frameTooShort S.opb (lo64 F.length) := if_pos h

theorem foldRange_tooShort (S : Snapshot) (F : List Byte) (h0 : 0 ≤ sint S.opb)
    (hL : (F.length : Int) ≤ sint S.opc) :
    foldRange S F = raise .frameTooShort S.opc (lo64 F.length) := by
  rw [foldRange, if_neg (Int.not_lt.2 h0), if_pos hL]

theorem foldRange_inside (S : Snapshot) (F : List Byte) (h0 : 0 ≤ sint S.opb)
    (hL : sint S.opc < F.length) :
    foldRange S F = okWord (BitVec.ofNat 64
      (fold (subrange F (sint S.opb).toNat (rangeWidth S).toNat))) := by
  rw [foldRange, if_neg (Int.not_lt.2 h0), if_neg (Int.not_le.2 hL), lo64_natCast]

/-- What BYTESFROMTO can do: fail, or fold a range that lies inside its frame. -/
theorem bytesfromtoResult_cases (cap : Nat) (ft : BitVec 2) (f8 : Bool) (S : Snapshot) :
    (∃ e, bytesfromtoResult cap ft f8 S = .error e) ∨
      ∃ F a n, frameView cap ft S = .ok F ∧ a + n ≤ F.length ∧
        bytesfromtoResult cap ft f8 S = okWord (BitVec.ofNat 64 (fold (subrange F a n))) := by
  by_cases hout : rangeWidth S < 1 ∨ maxWidth f8 < rangeWidth S
  · exact .inl ⟨_, bytesfromtoResult_unsupportedWidth cap ft f8 S hout⟩
  have h1 : 1 ≤ rangeWidth S := by omega
  have hmax : rangeWidth S ≤ maxWidth f8 := by omega
  cases hF : frameView cap ft S with
  | error e => exact .inl ⟨e, bytesfromtoResult_frameError cap ft f8 S h1 hmax e hF⟩
  | ok F =>
    rw [bytesfromtoResult_frame cap ft f8 S h1 hmax F hF]
    by_cases h0 : sint S.opb < 0
    · exact .inl ⟨_, foldRange_negative S F h0⟩
    by_cases hL : (F.length : Int) ≤ sint S.opc
    · exact .inl ⟨_, foldRange_tooShort S F (by omega) hL⟩
    · have hspan : rangeWidth S = sint S.opc - sint S.opb + 1 := rfl
      exact .inr ⟨F, _, _, rfl, by omega, foldRange_inside S F (by omega) (by omega)⟩

/-- Settles O21: one rule for each outcome, and the words by evaluation. -/
theorem bytesfromtoFollowsItsRule : Obligations.BytesfromtoFollowsItsRule := by
  refine ⟨by decide, ?_⟩
  rintro s c ft f8 _ _ hc rfl rfl
  refine ⟨fun hout => ?_, fun h1 hmax e he => ?_, fun h1 hmax F hF => ?_⟩
  · exact failsWith_of_result _ s c hc _ _ _ (bytesfromtoResult_unsupportedWidth _ ft f8 c.snap hout)
  · exact failsWith_of_result _ s c hc _ _ _
      (bytesfromtoResult_frameError _ ft f8 c.snap h1 hmax e he)
  · have hframe := bytesfromtoResult_frame _ ft f8 c.snap h1 hmax F hF
    refine ⟨fun hneg => ?_, fun h0 hL => ?_, fun h0 hL => ?_⟩
    · exact failsWith_of_result _ s c hc _ _ _ (hframe.trans (foldRange_negative c.snap F hneg))
    · exact failsWith_of_result _ s c hc _ _ _ (hframe.trans (foldRange_tooShort c.snap F h0 hL))
    · exact givesWord_of_result _ s c hc _ (hframe.trans (foldRange_inside c.snap F h0 hL))

/-! ### BYTESFROMTO on a range given by its indices -/

section
variable (s : State) (c : InFlight) (ft : BitVec 2) (f8 : Bool) (a b : Nat) (hc : s.inFlight = some c)
  (hopb : c.snap.opb = BitVec.ofNat 64 a) (hopc : c.snap.opc = BitVec.ofNat 64 b) (hb : b < 2 ^ 63)
  (hab : a ≤ b) (hmax : b - a + 1 ≤ if f8 = true then 8 else 7)
include hopb hopc hb hab

theorem rangeWidth_of_indices : rangeWidth c.snap = (b - a + 1 : Nat) := by
  rw [rangeWidth, fromOperand, toOperand, hopb, hopc, sint_ofNat a (by omega), sint_ofNat b hb]
  omega

include hmax in
theorem rangeWidth_of_indices_le : rangeWidth c.snap ≤ maxWidth f8 := by
  rw [rangeWidth_of_indices c a b hopb hopc hb hab]
  cases f8 <;> simp only [maxWidth, reduceIte, Bool.false_eq_true] at hmax ⊢ <;> omega

include hc hmax

/-- BYTESFROMTO on the range a to b of a frame gives the fold of the range. -/
theorem givesWord_bytesfromto (F : List Byte) (hF : frameView s.params.bufCap ft c.snap = .ok F)
    (hL : b < F.length) :
    GivesWord (.bytesfromto ft f8) s (BitVec.ofNat 64 (fold (subrange F a (b - a + 1)))) := by
  have hwidth := rangeWidth_of_indices c a b hopb hopc hb hab
  have hle := rangeWidth_of_indices_le c f8 a b hopb hopc hb hab hmax
  have hfrom : sint c.snap.opb = a := hopb ▸ sint_ofNat a (by omega)
  have hto : sint c.snap.opc = b := hopc ▸ sint_ofNat b hb
  have hfold := foldRange_inside c.snap F (by omega) (by omega)
  rw [hwidth, hfrom, Int.toNat_natCast, Int.toNat_natCast] at hfold
  exact givesWord_of_result _ s c hc _
    ((bytesfromtoResult_frame _ ft f8 c.snap (by omega) hle F hF).trans hfold)

theorem failsWith_bytesfromto_noForm (h0 : ft ≠ 0) (h1 : ft ≠ 1) :
    FailsWith (.bytesfromto ft f8) s .invalidFrameType (zext64 2 ft) 1 := by
  have hwidth := rangeWidth_of_indices c a b hopb hopc hb hab
  have hle := rangeWidth_of_indices_le c f8 a b hopb hopc hb hab hmax
  exact failsWith_of_result _ s c hc _ _ _ (bytesfromtoResult_frameError _ ft f8 c.snap (by omega) hle _
    (frameView_noForm _ ft c.snap h0 h1))

end

/-- Settles O22: the fold of the range, as a sum for the byte form and as a quotient for the integer
form. -/
theorem bytesfromtoFoldsTheRange : Obligations.BytesfromtoFoldsTheRange := by
  intro s c f8 a b hc hopb hopc hb hab hmax
  refine ⟨fun hfits hL => ?_, fun ha hL => ?_, ?_, ?_⟩
  · have hgives := givesWord_bytesfromto s c 0 f8 a b hc hopb hopc hb hab hmax _
      (inputFrame_fits _ c.snap hfits) (by rwa [inputBytes_length])
    rwa [fold_subrange_inputBytes c.snap a b hab hL] at hgives
  · have hgives := givesWord_bytesfromto s c 1 f8 a b hc hopb hopc hb hab hmax _
      (frameView_integer_uint _ c.snap ha) (by rwa [be_length])
    rwa [fold_subrange_be _ _ _ (by omega),
      show width (uint c.snap.opa) - (a + (b - a + 1)) = width (uint c.snap.opa) - 1 - b by omega]
      at hgives
  · exact failsWith_bytesfromto_noForm s c 2 f8 a b hc hopb hopc hb hab hmax (by decide) (by decide)
  · exact failsWith_bytesfromto_noForm s c 3 f8 a b hc hopb hopc hb hab hmax (by decide) (by decide)

/-! ### The range and its bytes -/

/-- Settles O23: the results of NTHBYTE are the bytes of the frame, and the range is made of them. -/
theorem rangeIsTheFoldOfItsBytes : Obligations.RangeIsTheFoldOfItsBytes := by
  intro s S ft f8 F a b hparams hF hab hbF hmax
  obtain ⟨-, hcap, -⟩ := (wellFormed_iff s.params).1 hparams
  have hlen := frameView_length_le _ ft S F hF
  refine ⟨fun j => F.getD j 0, fun j _ hjb => ?_, ?_⟩
  · have hj : sint (BitVec.ofNat 64 j) = j := sint_ofNat j (by omega)
    have hgives := givesWord_nthbyte (issued s { S with opb := BitVec.ofNat 64 j }) _ ft F
      (issued_inFlight s _) hF (by rw [hj]; omega) (by rw [hj]; omega)
    rwa [hj, Int.toNat_natCast] at hgives
  · have hle : b - a + 1 ≤ if f8 = true then 8 else 7 := by
      rcases hmax with h7 | ⟨h8, hf8⟩
      · split <;> omega
      · rw [if_pos hf8, h8]
    rw [lo64_natCast, ← subrange_eq_map F a (b - a + 1) (by omega)]
    exact givesWord_bytesfromto _ _ ft f8 a b (issued_inFlight s _) rfl rfl (by omega) hab hle F hF hbF

/-! ### Outcomes that agree -/

/-- NTHBYTE sees of its operands the frame and the index. -/
theorem nthbyteResult_congr (cap : Nat) (ft gt : BitVec 2) (S T : Snapshot)
    (hframe : frameView cap ft S = frameView cap gt T) (hopb : S.opb = T.opb) :
    nthbyteResult cap ft S = nthbyteResult cap gt T := by
  simp only [nthbyteResult, byteAtIndex, byteNumberOperand, hframe, hopb]

/-- BYTESFROMTO sees of its operands the frame and the two indices. -/
theorem bytesfromtoResult_congr (cap : Nat) (ft gt : BitVec 2) (f8 : Bool) (S T : Snapshot)
    (hframe : frameView cap ft S = frameView cap gt T) (hopb : S.opb = T.opb) (hopc : S.opc = T.opc) :
    bytesfromtoResult cap ft f8 S = bytesfromtoResult cap gt f8 T := by
  simp only [bytesfromtoResult, foldRange, rangeWidth, fromOperand, toOperand, hframe, hopb, hopc]

/-- An input that holds `Be(n)` is the frame `Be(n)`. -/
theorem inputBytes_eq_be (T : Snapshot) (n : Nat) (hilen : uint T.ilen = width n)
    (hbytes : ∀ i, i < width n → ibufByte T.ibuf i = (be n).getD i 0) : inputBytes T = be n := by
  rw [inputBytes, hilen, be]
  refine List.map_congr_left fun i hi => ?_
  have hlt := List.mem_range.1 hi
  rw [hbytes i hlt, be_getD n i hlt]

/-- Settles O24: both forms have the frame `Be(n)`. -/
theorem bothFormsGiveTheSameOutcome : Obligations.BothFormsGiveTheSameOutcome := by
  intro s S T n f8 hparams hn hopa hilen hbytes hopb hopc
  obtain ⟨hcap, -, -⟩ := (wellFormed_iff s.params).1 hparams
  have hw := width_le n
  have hsint : sint S.opa = n := hopa ▸ sint_ofNat n hn
  have hlen : uint T.ilen = width n := by
    rw [hilen, uint, BitVec.toNat_ofNat]
    omega
  have hframe : frameView s.params.bufCap 1 S = frameView s.params.bufCap 0 T := by
    rw [frameView_integer _ S (by omega), hsint, Int.toNat_natCast, frameView_bytes,
      inputFrame_fits _ T (by omega), inputBytes_eq_be T n hlen hbytes]
  exact ⟨exec_sameReport s S T _ _ (nthbyteResult_congr _ 1 0 S T hframe hopb.symm),
    exec_sameReport s S T _ _ (bytesfromtoResult_congr _ 1 0 f8 S T hframe hopb.symm hopc.symm)⟩

theorem rangeWidth_of_opc_eq_opb (S : Snapshot) (h : S.opc = S.opb) : rangeWidth S = 1 := by
  rw [rangeWidth, fromOperand, toOperand, h]
  omega

/-- With equal indices the bounds and the value of BYTESFROMTO are those of NTHBYTE. -/
theorem foldRange_eq_byteAtIndex (S : Snapshot) (F : List Byte) (h : S.opc = S.opb) :
    foldRange S F = byteAtIndex S F := by
  by_cases hneg : sint S.opb < 0
  · rw [foldRange_negative S F hneg, byteAtIndex_tooShort S F (.inl hneg)]
  by_cases hL : (F.length : Int) ≤ sint S.opb
  · rw [foldRange_tooShort S F (by omega) (by rwa [h]), byteAtIndex_tooShort S F (.inr hL), h]
  · have hwidth := rangeWidth_of_opc_eq_opb S h
    rw [foldRange_inside S F (by omega) (by rw [h]; omega),
      byteAtIndex_inside S F (by omega) (by omega), hwidth, Int.toNat_one,
      fold_subrange_one F _ (by omega)]

theorem bytesfromtoResult_eq_nthbyteResult (cap : Nat) (ft : BitVec 2) (f8 : Bool) (S : Snapshot)
    (h : S.opc = S.opb) : bytesfromtoResult cap ft f8 S = nthbyteResult cap ft S := by
  have hwidth := rangeWidth_of_opc_eq_opb S h
  have hmax : rangeWidth S ≤ maxWidth f8 := by rw [hwidth]; cases f8 <;> decide
  cases hF : frameView cap ft S with
  | error e =>
    rw [bytesfromtoResult_frameError cap ft f8 S hwidth.ge hmax e hF,
      nthbyteResult_frameError cap ft S e hF]
  | ok F =>
    rw [bytesfromtoResult_frame cap ft f8 S hwidth.ge hmax F hF, nthbyteResult_frame cap ft S F hF,
      foldRange_eq_byteAtIndex S F h]

/-- Settles O27: the two results are one. -/
theorem singleByteRangeIsNthbyte : Obligations.SingleByteRangeIsNthbyte := fun s S ft f8 h =>
  exec_sameReport s S S _ _ (bytesfromtoResult_eq_nthbyteResult _ ft f8 S h)

/-! ### Widths at the boundary, and the sign bit -/

/-- A range of width d + 1 that does not fit fails whatever the frame. -/
theorem failsWith_bytesfromto_of_distance (s : State) (S : Snapshot) (ft : BitVec 2) (f8 : Bool) (d : Nat)
    (hto : sint S.opb + d ≤ 2 ^ 63 - 1) (hopc : S.opc = lo64 (sint S.opb + d))
    (hmax : maxWidth f8 < d + 1) :
    FailsWith (.bytesfromto ft f8) (issued s S) .unsupportedWidth (lo64 (d + 1)) (lo64 (maxWidth f8)) := by
  have hfrom := BitVec.le_toInt S.opb
  have hwidth : rangeWidth S = d + 1 := by
    rw [rangeWidth, fromOperand, toOperand, hopc, sint_lo64 _ (by simp only [sint]; omega) (by omega)]
    omega
  have hres := bytesfromtoResult_unsupportedWidth s.params.bufCap ft f8 S (.inr (by rwa [hwidth]))
  rw [hwidth] at hres
  exact failsWith_of_result _ _ _ (issued_inFlight s S) _ _ _ hres

/-- Settles O25: the three pairs of a width and a bound. -/
theorem widthsEightAndNineAtTheBoundary : Obligations.WidthsEightAndNineAtTheBoundary := by
  intro s S ft
  refine ⟨fun hto hopc => ?_, fun hto hopc => ⟨?_, ?_⟩⟩
  · exact failsWith_bytesfromto_of_distance s S ft false 7 hto hopc (by decide)
  · exact failsWith_bytesfromto_of_distance s S ft true 8 hto hopc (by decide)
  · exact failsWith_bytesfromto_of_distance s S ft false 8 hto hopc (by decide)

/-- A number below 2^63 leaves bit 63 of its word clear. -/
theorem getLsbD_sign_of_lt (n : Nat) (h : n < 2 ^ 63) : (BitVec.ofNat 64 n).getLsbD 63 = false := by
  rw [BitVec.getLsbD_ofNat, Nat.testBit_lt_two_pow h, Bool.and_false]

/-- An integer frame folds to no more than the operand, so no completion sets bit 63 of RES. -/
theorem complete_bytesfromto_integer_sign (s : State) (cap : Nat) (f8 : Bool) (S : Snapshot) :
    (complete s (bytesfromtoResult cap 1 f8 S)).res.getLsbD 63 = false := by
  rcases bytesfromtoResult_cases cap 1 f8 S with ⟨e, he⟩ | ⟨F, a, k, hF, hin, hok⟩
  · rw [he, complete_error]; exact BitVec.getLsbD_zero
  · obtain ⟨n, hn, rfl⟩ := eq_be_of_frameView_integer cap S F hF
    have hle := fold_subrange_be_le n a k (by rwa [be_length] at hin)
    rw [hok, complete_okWord]
    exact getLsbD_sign_of_lt _ (by omega)

/-- Settles O26: the fold is at most the operand, and byte 0 of 8 carries the operand's sign bit. -/
theorem integerFormResultsStayPositive : Obligations.IntegerFormResultsStayPositive := by
  intro s S f8
  refine ⟨⟨_, exec_issued _ s S, complete_bytesfromto_integer_sign _ _ f8 S⟩, fun ha hw hopb => ?_⟩
  have hlt : uint S.opa < 2 ^ 63 := by
    have := BitVec.toInt_lt (x := S.opa)
    have := sint_nonneg S.opa ha
    simp only [sint] at *
    omega
  have h0 : sint S.opb = 0 := by rw [hopb]; rfl
  have hgives := givesWord_nthbyte (issued s S) _ 1 _ (issued_inFlight s S)
    (frameView_integer_uint _ S ha) h0.ge (by rw [h0, be_length, hw]; decide)
  rw [h0, Int.toNat_zero] at hgives
  exact ⟨_, be_head_le_of_width_eight (uint S.opa) hlt hw, hgives⟩

end Sys2Proof.Machine

/-! ## The family `42_integer_converter.md`: proofs

First the pseudocode of INTTOSTRING and STRINGTOINT, one rule per outcome (R170, R171), then the low bytes
that a fitted output holds (R174, R175), then the two round trips (R172, R173). -/

namespace Sys2Proof.Machine

/-! ### INTTOSTRING -/

theorem fitBytes_of_le (size : Nat) (N : List Byte) (h : size ≤ N.length) :
    fitBytes size N = N.drop (N.length - size) := if_pos h

theorem fitBytes_of_lt (size : Nat) (N : List Byte) (h : N.length < size) :
    fitBytes size N = List.replicate (size - N.length) 0 ++ N := if_neg (Nat.not_le.2 h)

theorem inttostringResult_unsupportedWidth (cap : Nat) (S : Snapshot)
    (h : sint S.opb < 0 ∨ (cap : Int) < sint S.opb) :
    inttostringResult cap true S = raise .unsupportedWidth S.opb (lo64 cap) := if_pos h

theorem inttostringResult_fitted (cap : Nat) (S : Snapshot) (h0 : 0 ≤ sint S.opb)
    (hcap : sint S.opb ≤ cap) :
    inttostringResult cap true S = okBytes (fitBytes (uint S.opb) (be (uint S.opa))) := by
  rw [inttostringResult, if_pos rfl, if_neg (not_outside h0 hcap), sizeOperand, sint_nonneg S.opb h0,
    Int.toNat_natCast]

section
variable (s : State) (c : InFlight) (hc : s.inFlight = some c)
include hc

/-- INTTOSTRING without SZ gives `Be` of the operand. -/
theorem givesBytes_inttostring_natural : GivesBytes (.inttostring false) s (be (uint c.snap.opa)) := by
  have hw := width_le (uint c.snap.opa)
  exact givesBytes_of_result _ s c hc _ (by rw [be_length]; omega) rfl

/-- INTTOSTRING.SZ with a size within its bounds gives `Be` of the operand, fitted. -/
theorem givesBytes_inttostring_fitted (h0 : 0 ≤ sint c.snap.opb)
    (hcap : sint c.snap.opb ≤ s.params.bufCap) :
    GivesBytes (.inttostring true) s (fitBytes (uint c.snap.opb) (be (uint c.snap.opa))) :=
  givesBytes_of_result _ s c hc _ (by rw [fitBytes_length]; exact c.snap.opb.isLt)
    (inttostringResult_fitted _ c.snap h0 hcap)

end

/-- Settles O28: one rule for each outcome, and the fitting by the two cases of its definition. -/
theorem inttostringGivesTheFittedBytes : Obligations.InttostringGivesTheFittedBytes := by
  refine ⟨by decide, by decide, fun s c hc =>
    ⟨givesBytes_inttostring_natural s c hc, fun hsize => ?_, fun h0 hcap => ?_⟩⟩
  · exact failsWith_of_result _ s c hc _ _ _ (inttostringResult_unsupportedWidth _ c.snap hsize)
  · have hgives := givesBytes_inttostring_fitted s c hc h0 hcap
    have hsize := sint_nonneg c.snap.opb h0
    refine ⟨fun hle => ?_, fun hlt => ?_⟩
    · rwa [fitBytes_of_le _ _ (by rw [be_length]; omega), be_length] at hgives
    · rwa [fitBytes_of_lt _ _ (by rw [be_length]; omega), be_length] at hgives

/-! ### STRINGTOINT -/

theorem stringtointResult_tooLong (cap : Nat) (S : Snapshot) (h : cap < uint S.ilen) :
    stringtointResult cap S = raise .illegalRequest S.ilen (lo64 cap) := by
  rw [stringtointResult, inputFrame_tooLong cap S h]
  rfl

theorem stringtointResult_unsupportedWidth (cap : Nat) (S : Snapshot) (hfits : uint S.ilen ≤ cap)
    (h8 : 8 < uint S.ilen) : stringtointResult cap S = raise .unsupportedWidth S.ilen 8 := by
  simp only [stringtointResult, inputFrame_fits cap S hfits]
  exact if_pos h8

theorem stringtointResult_ok (cap : Nat) (S : Snapshot) (hfits : uint S.ilen ≤ cap)
    (h8 : uint S.ilen ≤ 8) :
    stringtointResult cap S = okWord (BitVec.ofNat 64 (fold (inputBytes S))) := by
  simp only [stringtointResult, inputFrame_fits cap S hfits, lo64_natCast]
  exact if_neg (Nat.not_lt.2 h8)

/-- STRINGTOINT of at most 8 bytes gives their fold. -/
theorem givesWord_stringtoint (s : State) (c : InFlight) (hc : s.inFlight = some c)
    (hfits : uint c.snap.ilen ≤ s.params.bufCap) (h8 : uint c.snap.ilen ≤ 8) :
    GivesWord .stringtoint s (BitVec.ofNat 64 (fold (inputBytes c.snap))) :=
  givesWord_of_result _ s c hc _ (stringtointResult_ok _ c.snap hfits h8)

/-- The fold of the input, as a sum (20_memory.md R72). -/
theorem fold_inputBytes (S : Snapshot) :
    fold (inputBytes S) =
      ∑ j ∈ Finset.range (uint S.ilen), (ibufByte S.ibuf j).toNat * 2 ^ (8 * (uint S.ilen - 1 - j)) := by
  rw [fold_eq_sum, inputBytes_length]
  refine Finset.sum_congr rfl fun j hj => ?_
  rw [inputBytes_getD S j (Finset.mem_range.1 hj)]

/-- Settles O29: one rule for each outcome, and the fold as a sum. -/
theorem stringtointFoldsTheInput : Obligations.StringtointFoldsTheInput := by
  refine ⟨by decide, fun s c hc => ⟨fun hlong => ?_, fun hfits h8 => ?_, fun hfits h8 => ?_⟩⟩
  · exact failsWith_of_result _ s c hc _ _ _ (stringtointResult_tooLong _ c.snap hlong)
  · exact failsWith_of_result _ s c hc _ _ _ (stringtointResult_unsupportedWidth _ c.snap hfits h8)
  · rw [← fold_inputBytes]
    exact givesWord_stringtoint s c hc hfits h8

/-! ### The bytes of a fitted output -/

/-- Fitting `Be(n)` to a size keeps the low bytes of n, whether it drops or pads. -/
theorem fitBytes_be (z n : Nat) (hn : n < 2 ^ 64) : fitBytes z (be n) = lowBytes z n := by
  by_cases hz : z ≤ width n
  · have hdrop : subrange (be n) (width n - z) z = (be n).drop (width n - z) :=
      List.take_of_length_le (by rw [List.length_drop, be_length]; omega)
    rw [fitBytes_of_le z (be n) (by rwa [be_length]), be_length, ← hdrop, subrange_be n _ z (by omega),
      Nat.sub_add_cancel hz, Nat.sub_self, Nat.mul_zero, Nat.shiftRight_zero]
  · have hlt : n < 2 ^ (8 * z) :=
      (lt_two_pow_width n hn).trans_le (Nat.pow_le_pow_right (by omega) (by omega))
    apply fold_injective
    · rw [fitBytes_length, lowBytes_length]
    · rw [fitBytes_of_lt z (be n) (by rw [be_length]; omega), fold_append, fold_zeros, Nat.zero_mul,
        Nat.zero_add, fold_be n hn, fold_lowBytes, Nat.mod_eq_of_lt hlt]

/-- Byte `i` from the end of the `k` low bytes of n. -/
theorem lowBytes_getD_toNat (k n i : Nat) (h : i < k) :
    ((lowBytes k n).getD (k - 1 - i) 0).toNat = n / 2 ^ (8 * i) % 256 := by
  have hlt : k - 1 - i < k := by omega
  have hsub : k - 1 - (k - 1 - i) = i := by omega
  rw [List.getD_eq_getElem _ _ (by rwa [lowBytes_length])]
  simp only [lowBytes, List.getElem_map, List.getElem_range, hsub, BitVec.toNat_ofNat,
    Nat.shiftRight_eq_div_pow]

/-- A sequence is the low bytes of its fold, leading zeros kept. -/
theorem lowBytes_fold (s : List Byte) : lowBytes s.length (fold s) = s := by
  apply fold_injective
  · exact lowBytes_length _ _
  · rw [fold_lowBytes, Nat.mod_eq_of_lt (fold_lt_two_pow s)]

/-- INTTOSTRING.SZ with a size z up to BUF_CAP gives the z low bytes of the operand. -/
theorem givesBytes_inttostring_lowBytes (s : State) (c : InFlight) (z : Nat) (hc : s.inFlight = some c)
    (hparams : s.params.wellFormed = true) (hz : z ≤ s.params.bufCap)
    (hopb : c.snap.opb = BitVec.ofNat 64 z) :
    GivesBytes (.inttostring true) s (lowBytes z (uint c.snap.opa)) := by
  obtain ⟨-, hcap, -⟩ := (wellFormed_iff s.params).1 hparams
  have hsint : sint c.snap.opb = z := hopb ▸ sint_ofNat z (by omega)
  have huint := sint_nonneg c.snap.opb (by omega)
  have hgives := givesBytes_inttostring_fitted s c hc (by omega) (by omega)
  rwa [show uint c.snap.opb = z by omega, fitBytes_be z _ c.snap.opa.isLt] at hgives

/-- Settles O32: the output is the z low bytes of the operand. -/
theorem fittedWidthKeepsTheLowBytes : Obligations.FittedWidthKeepsTheLowBytes :=
  fun s S z hparams hz hopb =>
    ⟨lowBytes z (uint S.opa),
      givesBytes_inttostring_lowBytes (issued s S) _ z (issued_inFlight s S) hparams hz hopb,
      lowBytes_length z _, lowBytes_getD_toNat z _, fun _ => fold_lowBytes z _⟩

/-- Settles O33: the output is `Be` of the operand. -/
theorem naturalOutputHasNoLeadingZero : Obligations.NaturalOutputHasNoLeadingZero := by
  intro s S
  refine ⟨be (uint S.opa), givesBytes_inttostring_natural (issued s S) _ (issued_inFlight s S),
    be_length _, ?_, ?_, fun hhead => ?_⟩
  · rw [be_length]; exact width_pos _
  · rw [be_length]; exact width_le _
  · by_contra hopa
    exact be_head_ne_zero (uint S.opa) S.opa.isLt (fun h => hopa (BitVec.eq_of_toNat_eq h)) hhead

/-! ### The two round trips -/

theorem BytesReport.err_eq {s t : State} {seq : List Byte} (h : BytesReport s seq t) : t.err = false :=
  congrArg State.err h.registers

theorem BytesReport.olen_eq {s t : State} {seq : List Byte} (h : BytesReport s seq t) :
    t.olen = BitVec.ofNat 64 seq.length := congrArg State.olen h.registers

/-- Settles O30: the copied output is the input frame `Be(n)`, and its fold is n. -/
theorem integerRoundTrip : Obligations.IntegerRoundTrip := by
  intro s S hparams
  obtain ⟨t, ht, hreport⟩ := givesBytes_inttostring_natural (issued s S) _ (issued_inFlight s S)
  refine ⟨t, ht, hreport.err_eq, fun u T hu hilen hcopy => ?_⟩
  obtain ⟨hcap, -, -⟩ := (wellFormed_iff s.params).1 hparams
  have hw := width_le (uint S.opa)
  have hlen : uint t.olen = width (uint S.opa) := by
    rw [hreport.olen_eq, be_length, uint, BitVec.toNat_ofNat]
    exact Nat.mod_eq_of_lt (hw.trans_lt (by decide))
  have hin : inputBytes T = be (uint S.opa) :=
    inputBytes_eq_be T _ (hilen ▸ hlen) fun i hi => by rw [hcopy i (by omega), hreport.shown]
  have hgives := givesWord_stringtoint (issued u T) _ (issued_inFlight u T)
    (by rw [issued_params, hu, hilen]; omega) (by rw [hilen]; omega)
  rwa [hin, fold_be _ S.opa.isLt, BitVec.ofNat_toNat, BitVec.setWidth_eq] at hgives

/-- Settles O31: the output is the ILEN low bytes of the fold, which are the sequence. -/
theorem sequenceRoundTrip : Obligations.SequenceRoundTrip := by
  intro s S hparams h8
  obtain ⟨hcap, -, -⟩ := (wellFormed_iff s.params).1 hparams
  refine ⟨_, givesWord_stringtoint (issued s S) _ (issued_inFlight s S) (h8.trans hcap) h8,
    fun u T hu hopa hopb => ?_⟩
  have hfold : uint T.opa = fold (inputBytes S) := by
    rw [hopa, ← lo64_natCast, uint_lo64_natCast _ (fold_lt_word _ (by rwa [inputBytes_length]))]
  have hilen : S.ilen = BitVec.ofNat 64 (uint S.ilen) := by rw [BitVec.ofNat_toNat, BitVec.setWidth_eq]
  have hout : lowBytes (uint S.ilen) (uint T.opa) = inputBytes S := by
    rw [hfold, ← inputBytes_length S, lowBytes_fold]
  have hgives := givesBytes_inttostring_lowBytes (issued u T) _ (uint S.ilen) (issued_inFlight u T)
    (by rwa [issued_params, hu]) (by rw [issued_params, hu]; omega) (hopb.trans hilen)
  rw [hout] at hgives
  obtain ⟨t, ht, hreport⟩ := hgives
  refine ⟨t, ht, hreport.err_eq, ?_, fun i hi => ?_⟩
  · rw [hreport.olen_eq, inputBytes_length, ← hilen]
  · rw [hreport.shown, inputBytes_getD S i hi]

end Sys2Proof.Machine

/-! ## The family `60_exceptions.md`: proofs

First that no step stops (R195), then the error codes (R190), then the blocks of a platform (R203), where
a step that always answers is what a platform's step rests on. -/

namespace Sys2Proof.Machine

/-! ### No step stops, and the error codes -/

/-- Settles O8: a due completion completes its command, and any other step takes the next event. -/
theorem stepNeverStops : Obligations.StepNeverStops := by
  intro s
  cases hd : completionDue s with
  | none => exact ⟨nextEvent s, step_of_not_due s hd⟩
  | some S =>
    obtain ⟨hr, c, hc, h0, -⟩ := (completionDue_iff s S).1 hd
    exact ⟨_, step_of_due s c hr hc h0⟩

/-- Settles O56: R190's table is `errorCode`, row by row. -/
theorem errorCodesAreTheTable : Obligations.ErrorCodesAreTheTable := rfl

/-! ### The blocks of a platform -/

theorem stepBlock_absent (p : Platform) (k : Nat) (hk : p.blocks[k]? = none) :
    p.stepBlock k = .next p := by
  simp [Platform.stepBlock, hk]

theorem stepBlock_present (p : Platform) (k : Nat) (s t : State) (hk : p.blocks[k]? = some s)
    (hs : step s = .next t) : p.stepBlock k = .next { blocks := p.blocks.set k t } := by
  simp [Platform.stepBlock, hk, hs]

/-- Settles O59: the step sets place k of the list of blocks, or nothing where there is no block k. -/
theorem blocksShareNothing : Obligations.BlocksShareNothing := by
  intro p k
  cases hk : p.blocks[k]? with
  | none => exact ⟨p, stepBlock_absent p k hk, rfl, fun _ _ => rfl⟩
  | some s =>
    obtain ⟨t, hs⟩ := stepNeverStops s
    exact ⟨_, stepBlock_present p k s t hk hs, List.length_set,
      fun j hj => List.getElem?_set_ne hj.symm⟩

end Sys2Proof.Machine

/-! ## The family `70_reset_and_hazards.md`: proofs

First the block at rest and the events that leave it so, which is what the first command after a reset
rests on (R223), then RST asserted (R220, R222). -/

namespace Sys2Proof.Machine

/-! ### The block at rest -/

/-- RST is not asserted and no command is in flight: a CMD write issues (10_state.md R40). -/
structure Idle (s : State) : Prop where
  rst : s.rst = false
  inFlight : s.inFlight = none

theorem HasResetValues.idle {s : State} (h : HasResetValues s) : Idle s := ⟨h.rst, h.inFlight⟩

theorem Idle.busy_eq {s : State} (h : Idle s) : s.busy = false := by
  rw [Machine.busy_eq, h.inFlight, Option.isSome_none]

/-- CMD is at the window's base and nowhere else (20_memory.md R60, R61). -/
theorem windowOffset_eq_zero (p : Params) (a : Nat) (h : windowOffset p a = some 0) : a = p.wbcBase := by
  unfold windowOffset at h
  split_ifs at h
  simp only [Option.some.injEq] at h
  omega

/-- With no command in flight a step takes the oldest event that waits. -/
theorem step_of_events_cons (s : State) (e : Event) (rest : List Event) (hn : s.inFlight = none)
    (hev : s.events = e :: rest) : step s = .next (applyEvent { s with events := rest } e) := by
  obtain ⟨hnext, -⟩ := stepTakesOneEventInOrder s (.inr (.inl hn))
  exact hnext e rest hev

/-- Of all events, only RST and a CMD write end the rest. -/
theorem applyEvent_idle (s : State) (e : Event) (h : Idle s) (hrst : e ≠ .rst true)
    (hcmd : ∀ w, e ≠ .write s.params.wbcBase 8 w) : Idle (applyEvent s e) := by
  rcases applyEvent_cases s e with
    he | ⟨a, off, n, -, -, he⟩ | ⟨a, off, n, w, hw, hwin, he⟩ | ⟨-, he⟩ | ⟨b, hb, he⟩ <;> rw [he]
  · exact h
  · exact { h with }
  · have hoff : ¬(off = 0 ∧ n = 8) := by
      rintro ⟨rfl, rfl⟩
      exact hcmd w (windowOffset_eq_zero s.params a hwin ▸ hw)
    obtain ⟨-, -, hr, -⟩ := memWrite_frame s off n w
    exact ⟨hr.trans h.rst, (memWrite_inFlight_of_not_cmd s off n w hoff).trans h.inFlight⟩
  · rw [clockTick_idle s h.inFlight]; exact h
  · cases b with
    | true => exact absurd hb hrst
    | false => rw [driveRst_release_of_low s h.rst]; exact h

/-- A block at rest takes one such event at each step, and is at rest after the last. -/
theorem run_idle (es rest : List Event) (s : State) (h : Idle s) (hev : s.events = es ++ rest)
    (he : ∀ e ∈ es, e ≠ .rst true ∧ ∀ w, e ≠ .write s.params.wbcBase 8 w) :
    ∃ t, Host.Core.run Sys2Proof.core es.length s = .next t ∧ Idle t ∧ t.params = s.params ∧
      t.events = rest := by
  induction es generalizing s with
  | nil => exact ⟨s, rfl, h, rfl, hev⟩
  | cons e es ih =>
    obtain ⟨⟨hrst, hcmd⟩, hes⟩ := List.forall_mem_cons.1 he
    have hstep := step_of_events_cons s e (es ++ rest) h.inFlight hev
    have hparams := applyEvent_params { s with events := es ++ rest } e
    obtain ⟨t, hrun, hidle, htp, hte⟩ := ih (applyEvent { s with events := es ++ rest } e)
      (applyEvent_idle { s with events := es ++ rest } e { h with } hrst hcmd) (applyEvent_events _ _)
      (by rwa [hparams])
    exact ⟨t, (run_succ s _ es.length hstep).trans hrun, hidle, htp.trans hparams, hte⟩

/-- Settles O55: the block is at rest when the CMD write comes, and the write latches every input
(10_state.md R40). -/
theorem firstWriteAfterResetIssues : Obligations.FirstWriteAfterResetIssues := by
  intro r es v hreset he
  obtain ⟨t, hrun, hidle, hparams, hev⟩ :=
    run_idle es [.write r.params.wbcBase 8 v] { r with events := es ++ [.write r.params.wbcBase 8 v] }
      { hreset.idle with } rfl he
  have hwin : windowOffset t.params r.params.wbcBase = some 0 := by
    rw [hparams]; exact windowOffset_inside r.params 0 (by decide)
  have hstep := step_of_events_cons t _ [] hidle.inFlight hev
  rw [applyEvent_write { t with events := [] } _ 0 8 v hwin, hostWrite,
    memWrite_cmd_idle { t with events := [] } v hidle.rst hidle.busy_eq] at hstep
  exact ⟨t, _, _, hrun, hidle.busy_eq, hstep, rfl, rfl, rfl, rfl, rfl, rfl, rfl, rfl, fun _ => rfl⟩

/-! ### RST asserted -/

theorem memRead_of_rst (s : State) (off n : Nat) (h : s.rst = true) : memRead s off n = 0 := by
  simp [memRead, h]

theorem completionDue_of_rst (s : State) (h : s.rst = true) : completionDue s = none :=
  (completionDue_eq_none_iff s).2 (.inl h)

theorem hasResetValues_driveRst_release (s : State) (h : s.rst = true) :
    HasResetValues (driveRst s false) := by
  obtain ⟨hrelease, -⟩ := resetLeavesItsValues
  exact hrelease s h

/-- Settles O52. -/
theorem resetInputHoldsTheBlock : Obligations.ResetInputHoldsTheBlock := fun s hr =>
  ⟨fun off n => memRead_of_rst s off n hr, fun off n v => memWrite_of_rst s off n v hr,
    step_of_not_due s (completionDue_of_rst s hr), hasResetValues_driveRst_release s hr⟩

/-- Settles O54: the assertion is an event that is no release, so it keeps every output. -/
theorem resetAbandonsTheCommand : Obligations.ResetAbandonsTheCommand := fun s _ _ =>
  ⟨rfl, applyEvent_keepsOutputs s (.rst true) (by simp), completionDue_of_rst (driveRst s true) rfl,
    hasResetValues_driveRst_release (driveRst s true) rfl⟩

end Sys2Proof.Machine
